-- ==== Sys2Proof/Word.lean ====
section
/-! DEFINITION. The word types of keccak_core and the error causes its decoder and commands name.
Rules: spec/00_scope.md R7, R8; spec/10_state.md R21, R30; spec/60_exceptions.md R201. -/

namespace Sys2Proof

/-- An 8-bit value: a state byte, an operand field, a register of the session (R71, R23 to R25). -/
abbrev Byte := BitVec 8

/-- One 64-bit lane (R12, R21). -/
abbrev Lane := BitVec 64

/-- One 32-bit command word (R70). -/
abbrev CommandWord := BitVec 32

/-- The lane file `A`: lane (x,y) is entry `x + 5y` (R11, R21). -/
abbrev LaneFile := Vector Lane 25

/-- The 32 bytes of the output register `OUT` (R30). -/
abbrev Digest := Vector Byte 32

/-- The causes of an error (R201). The cause NONE is no error and has no constructor. -/
inductive ErrorCause where
  /-- `OP ≥ 0x08` (R75). -/
  | illegalOpcode
  /-- `RSV` or a must-be-0 field is not 0 (R74). -/
  | reservedNonzero
  /-- `INIT` with a rate outside 32..200 (R141). -/
  | badRate
  /-- `XORB` with an index of 200 or more (R144). -/
  | badIndex
  /-- `ABSORB` or `FINALIZE` in the FINALIZED phase (R142, R147). -/
  | sessionFinalized
  /-- `RESTORE` with no valid checkpoint (R182). -/
  | noSavedContext
  deriving DecidableEq, Repr

end Sys2Proof
end

