-- ==== Sys2Proof/Config.lean ====
section
/-! DEFINITION. The implementation parameters of the block (spec/00_scope.md R7). Those the spec gives a
value are definitions; those it leaves OPEN are constants without a body, so that nothing can be proved
of their values (log entry 6). `LANES` (25), `LANE_BITS` (64), `STATE_BITS` (1600), `CMD_BITS` (32) and
`SAVE_SLOTS` (1) are the sizes of the types in Word.lean and of the fields of State. -/

namespace Sys2Proof.Config

/-- `STATE_BYTES` (R7). -/
abbrev stateBytes : Nat := 200

/-- `ROUNDS` (R7). -/
abbrev rounds : Nat := 24

/-- `OUT_BYTES` (R7). -/
abbrev outBytes : Nat := 32

/-- `RATE_RESET`, in bytes (R7, R24). -/
abbrev rateReset : Byte := 136

/-- `DELIM_RESET` (R7, R25). -/
abbrev delimReset : Byte := 0x01

/-- `RATE_MIN`, in bytes (R7; decision D8). -/
abbrev rateMin : Nat := 32

/-- `RATE_MAX`, in bytes (R7; decision D8). -/
abbrev rateMax : Nat := 200

/-- `WINDOW_BYTES` (R7, R51). -/
abbrev windowBytes : Nat := 256

/-- `WINDOW_BASE`, OPEN: where the read window sits in a host's address space (R61). -/
opaque windowBase : Nat

/-- `LAT_NOP`, OPEN: a number of cycles that no rule depends on (R7, R238). -/
opaque latNop : Nat

/-- `LAT_INIT`, OPEN (R7, R238). -/
opaque latInit : Nat

/-- `LAT_ABSORB`, OPEN (R7, R238). -/
opaque latAbsorb : Nat

/-- `LAT_XORB`, OPEN (R7, R238). -/
opaque latXorb : Nat

/-- `LAT_PERMUTE`, OPEN (R7, R238). -/
opaque latPermute : Nat

/-- `LAT_FINALIZE`, OPEN (R7, R238). -/
opaque latFinalize : Nat

/-- `LAT_SAVE`, OPEN (R7, R238). -/
opaque latSave : Nat

/-- `LAT_RESTORE`, OPEN (R7, R238). -/
opaque latRestore : Nat

end Sys2Proof.Config
end

