-- ==== Sys2Proof/Syntax.lean ====
section
/-! DEFINITION. The commands of keccak_core, one constructor per row of spec/opcode_table.json
(spec/30_encoding.md R72, R73). Operands are the 8-bit fields as the word holds them. -/

namespace Sys2Proof

/-- One command (R73). -/
inductive Instr where
  /-- `NOP` (R180). -/
  | nop
  /-- `INIT rate, delim` (R141). -/
  | init (rate delim : Byte)
  /-- `ABSORB byte` (R142). -/
  | absorb (byte : Byte)
  /-- `XORB index, value` (R144). -/
  | xorb (index value : Byte)
  /-- `PERMUTE` (R111). -/
  | permute
  /-- `FINALIZE` (R147). -/
  | finalize
  /-- `SAVE` (R181). -/
  | save
  /-- `RESTORE` (R182). -/
  | restore
  deriving DecidableEq, Repr

end Sys2Proof
end

