-- ==== Sys2Proof/WellFormed.lean ====
section
/-! DEFINITION. Well-formed commands as an assembler writes them (spec/30_encoding.md R78): a mnemonic and
numeric operands. Two checks: the operand count matches the mnemonic, and every operand fits in 8 bits. The
legal rate and index ranges are NOT checked here: those are errors of execution (R72, R78, R202). Every
`Instr` is well formed, because its operands are 8-bit fields by type. -/

namespace Sys2Proof

/-- The eight mnemonics of R73. -/
inductive Mnemonic where
  | nop | init | absorb | xorb | permute | finalize | save | restore
  deriving DecidableEq, Repr

/-- A command as written in assembly (R78): the mnemonic and its operands' numeric values, in order. -/
structure AsmCommand where
  mnemonic : Mnemonic
  operands : List Nat
  deriving DecidableEq, Repr

/-- How many operands a mnemonic takes (R78, operand order). -/
def Mnemonic.operandCount : Mnemonic → Nat
  | .nop | .permute | .finalize | .save | .restore => 0
  | .absorb => 1
  | .init | .xorb => 2

/-- R78: the operand count matches the mnemonic. -/
def AsmCommand.countOk (c : AsmCommand) : Bool :=
  c.operands.length == c.mnemonic.operandCount

/-- R78: every operand fits in 8 bits (0..255). -/
def AsmCommand.rangeOk (c : AsmCommand) : Bool :=
  c.operands.all (· < 256)

/-- The assembler's two checks (R78). -/
def AsmCommand.wellFormed (c : AsmCommand) : Bool :=
  c.countOk && c.rangeOk

/-- The assembly form of a command (R78, operand order). -/
def Instr.source : Instr → AsmCommand
  | .nop => ⟨.nop, []⟩
  | .init rate delim => ⟨.init, [rate.toNat, delim.toNat]⟩
  | .absorb byte => ⟨.absorb, [byte.toNat]⟩
  | .xorb index value => ⟨.xorb, [index.toNat, value.toNat]⟩
  | .permute => ⟨.permute, []⟩
  | .finalize => ⟨.finalize, []⟩
  | .save => ⟨.save, []⟩
  | .restore => ⟨.restore, []⟩

/-- A command is well formed when its assembly form passes the assembler's checks. -/
abbrev Instr.WellFormed (i : Instr) : Prop :=
  i.source.wellFormed = true

/-- The command an assembly form stands for; none when a check of R78 refuses it. -/
def AsmCommand.toInstr (c : AsmCommand) : Option Instr :=
  if c.wellFormed then
    match c.mnemonic, c.operands with
    | .nop, [] => some .nop
    | .init, [rate, delim] => some (.init (BitVec.ofNat 8 rate) (BitVec.ofNat 8 delim))
    | .absorb, [byte] => some (.absorb (BitVec.ofNat 8 byte))
    | .xorb, [index, value] => some (.xorb (BitVec.ofNat 8 index) (BitVec.ofNat 8 value))
    | .permute, [] => some .permute
    | .finalize, [] => some .finalize
    | .save, [] => some .save
    | .restore, [] => some .restore
    | _, _ => none
  else none

end Sys2Proof
end

