-- ==== Sys2Proof/Decode.lean ====
section
/-! DEFINITION. The command word: its fields, the opcode map, the decoder and, after it, the encoder
(spec/30_encoding.md R70 to R77, R80). The word is delivered whole, so no byte order applies (R55; log
entry 7). -/

namespace Sys2Proof

/-- `OP = w[7:0]` (R71). -/
def opField (w : CommandWord) : Byte := w.extractLsb' 0 8

/-- `A = w[15:8]` (R71). -/
def aField (w : CommandWord) : Byte := w.extractLsb' 8 8

/-- `B = w[23:16]` (R71). -/
def bField (w : CommandWord) : Byte := w.extractLsb' 16 8

/-- `RSV = w[31:24]` (R71). -/
def rsvField (w : CommandWord) : Byte := w.extractLsb' 24 8

/-- What the decoder answers (R76): a command, or an illegal verdict with its cause. -/
inductive Decoded where
  | command (i : Instr)
  | illegal (c : ErrorCause)
  deriving DecidableEq, Repr

/-- A command that takes no operand: both operand fields must be 0 (R72, R74). -/
def noOperands (a b : Byte) (i : Instr) : Decoded :=
  if a ≠ 0 ∨ b ≠ 0 then .illegal .reservedNonzero else .command i

/-- The decoder, in the order of R76: the opcode range, then `RSV`, then the fields that must be 0. -/
def decode (w : CommandWord) : Decoded :=
  if 0x08 ≤ (opField w).toNat then .illegal .illegalOpcode
  else if rsvField w ≠ 0 then .illegal .reservedNonzero
  else
    match (opField w).toNat with
    | 0x00 => noOperands (aField w) (bField w) .nop
    | 0x01 => .command (.init (aField w) (bField w))
    | 0x02 => if bField w ≠ 0 then .illegal .reservedNonzero else .command (.absorb (aField w))
    | 0x03 => .command (.xorb (aField w) (bField w))
    | 0x04 => noOperands (aField w) (bField w) .permute
    | 0x05 => noOperands (aField w) (bField w) .finalize
    | 0x06 => noOperands (aField w) (bField w) .save
    | 0x07 => noOperands (aField w) (bField w) .restore
    | _ => .illegal .illegalOpcode

/-- The mnemonic of a command (R73). -/
def Instr.mnemonic (i : Instr) : Mnemonic := i.source.mnemonic

/-- The opcode of a mnemonic (R73). -/
def Mnemonic.opcode : Mnemonic → Byte
  | .nop => 0x00
  | .init => 0x01
  | .absorb => 0x02
  | .xorb => 0x03
  | .permute => 0x04
  | .finalize => 0x05
  | .save => 0x06
  | .restore => 0x07

/-- Operand field A of a command, 0 where the command has none (R72). -/
def Instr.operandA : Instr → Byte
  | .init rate _ => rate
  | .absorb byte => byte
  | .xorb index _ => index
  | .nop | .permute | .finalize | .save | .restore => 0

/-- Operand field B of a command, 0 where the command has none (R72). -/
def Instr.operandB : Instr → Byte
  | .init _ delim => delim
  | .xorb _ value => value
  | .absorb _ | .nop | .permute | .finalize | .save | .restore => 0

/-- The word of a command: `(RSV << 24) | (B << 16) | (A << 8) | OP` with `RSV = 0` (R80). -/
def encode (i : Instr) : CommandWord :=
  (i.operandB.setWidth 32 <<< 16) ||| (i.operandA.setWidth 32 <<< 8) ||| i.mnemonic.opcode.setWidth 32

/-- One row of the opcode map (R73): a word is of the row when `(w AND mask) = match`. -/
structure OpcodeRow where
  mnemonic : Mnemonic
  matchBits : CommandWord
  mask : CommandWord
  deriving DecidableEq, Repr

/-- The exact patterns of R73. -/
def opcodeTable : List OpcodeRow :=
  [⟨.nop, 0x00000000, 0xFFFFFFFF⟩, ⟨.init, 0x00000001, 0xFF0000FF⟩,
   ⟨.absorb, 0x00000002, 0xFFFF00FF⟩, ⟨.xorb, 0x00000003, 0xFF0000FF⟩,
   ⟨.permute, 0x00000004, 0xFFFFFFFF⟩, ⟨.finalize, 0x00000005, 0xFFFFFFFF⟩,
   ⟨.save, 0x00000006, 0xFFFFFFFF⟩, ⟨.restore, 0x00000007, 0xFFFFFFFF⟩]

/-- A word is of a row (R73). -/
def OpcodeRow.holds (row : OpcodeRow) (w : CommandWord) : Bool :=
  w &&& row.mask == row.matchBits

/-- The 32-bit word whose low `nbits` bits are `w` and whose other bits are 0. Bit 0 of the table's numbering
is bit 0 of the command word, which the port takes whole (R55, R71). -/
def tableWord (nbits w : Nat) : CommandWord := BitVec.ofNat 32 (w % 2 ^ nbits)

/-- The command the decoder reads from a word of spec/opcode_table.json. -/
def decodeTableWord (nbits w : Nat) : Option Instr :=
  match decode (tableWord nbits w) with
  | .command i => some i
  | .illegal _ => none

end Sys2Proof
end

