-- ==== Sys2Proof/Machine/State.lean ====
section
/-! DEFINITION. The state of keccak_core (spec/10_state.md R20 to R41), the host's list of transactions that
drives it (R35; spec/70_reset_and_hazards.md R239), the reasons a step could stop, and the state after reset
(R230). Everything is plain data. -/

namespace Sys2Proof.Machine

/-- `PHASE`, 1 bit (R27): 0 is ABSORBING, 1 is FINALIZED. -/
inductive Phase where
  | absorbing
  | finalized
  deriving DecidableEq, Repr

/-- A session (R40): the fields that `SAVE` and `RESTORE` copy. -/
structure Session where
  /-- The lane file `A`, also the bytes `S[0..199]` (R21, R11). -/
  lanes : LaneFile
  /-- `OFFSET`, the index of the next absorbed byte (R23). -/
  offset : Byte
  /-- `RATE`, in bytes (R24). -/
  rate : Byte
  /-- `DELIM` (R25). -/
  delim : Byte
  /-- `UNTOUCHED` (R32): written by the rules, read by no rule but `SAVE` and `RESTORE`, which copy it. -/
  untouched : Bool
  /-- `PHASE` (R27). -/
  phase : Phase
  deriving DecidableEq, Repr

/-- One transaction of the host (R51, R53, R230, R239). -/
inductive Transaction where
  /-- `IssueCommand(w)` (R53). -/
  | command (w : CommandWord)
  /-- `ReadByte(a)` (R51). -/
  | read (a : Byte)
  /-- The reset input, applied between two commands (R231). -/
  | reset
  deriving DecidableEq, Repr

/-- The block's architectural state (R20) and the host's side of its ports (log entry 2). -/
structure State where
  /-- The live session (R40). -/
  session : Session
  /-- `ERR`, sticky (R28). -/
  err : Bool
  /-- `ERR_CAUSE` (R29). -/
  errCause : Byte
  /-- `OUT[0..31]` (R30). -/
  out : Digest
  /-- `SAVE_VALID` (R31). -/
  saveValid : Bool
  /-- The save slot `SV` (R31). -/
  sv : Session
  /-- The host's list of transactions (R239). It belongs to the host. -/
  transactions : List Transaction
  /-- The index of the host's next transaction, the model's pc (R35). It belongs to the host. -/
  pc : Nat
  /-- The bytes `ReadByte` has returned, the latest first (R51). They belong to the host. -/
  answers : List Byte
  deriving DecidableEq, Repr

/-- Reasons for a step to stop with a fault. There is none: the spec gives every command word, every read and
reset an effect, and an error is a state of the block, not a stop (R203, R204; log entry 4). Safe: nothing is
left out by it. -/
inductive Fault where
  deriving DecidableEq, Repr

/-- Reasons for a step to be refused by the model. -/
inductive Refusal where
  /-- The instruction of this mnemonic has no meaning in the model yet: raised by `exec`'s arm for it and by
  nothing else. Safe. No arm raises it: every instruction has its meaning. -/
  | notModelled (mnemonic : String)
  deriving DecidableEq, Repr

/-- The contents the model gives the save slot after reset. DESIGN CHOICE (log entry 1): the spec leaves them
unspecified and unobservable (R31, R230). Unsafe, were anything to read them. -/
def Session.blank : Session :=
  { lanes := Vector.replicate 25 0, offset := 0, rate := 0, delim := 0, untouched := false,
    phase := .absorbing }

/-- The block right after reset (R230), with a host that has no transaction to issue (log entry 2). -/
def State.reset : State :=
  { session := { lanes := Vector.replicate 25 0, offset := 0, rate := Config.rateReset,
                 delim := Config.delimReset, untouched := true, phase := .absorbing }
    err := false
    errCause := 0x00
    out := Vector.replicate 32 0
    saveValid := false
    sv := Session.blank
    transactions := []
    pc := 0
    answers := [] }

end Sys2Proof.Machine
end

