-- ==== Sys2Proof/Machine/Flags.lean ====
section
/-! DEFINITION. The status bits (spec/10_state.md R27, R28, R31, R36, R37) and the codes of `ERR_CAUSE`
(spec/60_exceptions.md R201). The block has no arithmetic flags. -/

namespace Sys2Proof.Machine

/-- `PHASE` as a bit (R27). -/
def Phase.bit : Phase → BitVec 1
  | .absorbing => 0
  | .finalized => 1

/-- STATUS = `{5'b00000, SAVE_VALID, ERR, PHASE}` (R37). -/
def statusByte (s : State) : Byte :=
  (0 : BitVec 5) ++ BitVec.ofBool s.saveValid ++ BitVec.ofBool s.err ++ s.session.phase.bit

/-- The code written to `ERR_CAUSE` (R201). -/
def causeCode : ErrorCause → Byte
  | .illegalOpcode => 0x01
  | .reservedNonzero => 0x02
  | .badRate => 0x03
  | .badIndex => 0x04
  | .sessionFinalized => 0x05
  | .noSavedContext => 0x06

end Sys2Proof.Machine
end

