-- ==== Sys2Proof/Machine/Operands.lean ====
section
/-! DEFINITION. The operand forms: the lane view and the byte view of the lane file (spec/00_scope.md R10,
R11), and the operand ranges that commands check when they execute (spec/30_encoding.md R72). -/

namespace Sys2Proof.Machine

/-- `A[x,y]`: lane index `x + 5y` (R11, R21). -/
def laneAt (a : LaneFile) (x y : Fin 5) : Lane := a[x.val + 5 * y.val]

/-- The lane file whose lane (x,y) is `g x y`. -/
def ofGrid (g : Fin 5 → Fin 5 → Lane) : LaneFile :=
  #v[g 0 0, g 1 0, g 2 0, g 3 0, g 4 0,
     g 0 1, g 1 1, g 2 1, g 3 1, g 4 1,
     g 0 2, g 1 2, g 2 2, g 3 2, g 4 2,
     g 0 3, g 1 3, g 2 3, g 3 3, g 4 3,
     g 0 4, g 1 4, g 2 4, g 3 4, g 4 4]

/-- Lane `L` by its index; no lane has an index of 25 or more, and 0 stands for one (log entry 5). -/
def laneOf (a : LaneFile) (L : Nat) : Lane := a[L]?.getD 0

/-- `S[i]`: byte `i mod 8` of lane `i div 8`, least significant first (R11). No byte has an index of 200 or
more, and 0 stands for one (log entry 5). -/
def byteAt (a : LaneFile) (i : Nat) : Byte := (laneOf a (i / 8)).extractLsb' (8 * (i % 8)) 8

/-- `v[8k+7 : 8k] <- b`, the other bits kept. -/
def setLaneByte (v : Lane) (k : Nat) (b : Byte) : Lane :=
  (v &&& ~~~((0xFF : Lane) <<< (8 * k))) ||| (b.setWidth 64 <<< (8 * k))

/-- `S[i] <- b` (R10, R11). An index of 200 or more names no byte and writes nothing (log entry 5). -/
def setByteAt (a : LaneFile) (i : Nat) (b : Byte) : LaneFile :=
  a.setIfInBounds (i / 8) (setLaneByte (laneOf a (i / 8)) (i % 8) b)

/-- `S[i] <- S[i] XOR b`. -/
def xorByteAt (a : LaneFile) (i : Nat) (b : Byte) : LaneFile := setByteAt a i (byteAt a i ^^^ b)

/-- `OUT[j]`. -/
def outAt (o : Digest) (j : Nat) : Byte := o[j]?.getD 0

/-- The rates `INIT` accepts: 32 ≤ rate ≤ 200 (R72, R141). -/
def rateLegal (rate : Byte) : Bool := Config.rateMin ≤ rate.toNat && rate.toNat ≤ Config.rateMax

/-- The indices `XORB` accepts: below 200 (R72, R144). -/
def indexLegal (index : Byte) : Bool := index.toNat < Config.stateBytes

end Sys2Proof.Machine
end

