-- ==== Sys2Proof/Machine/Ops.lean ====
section
/-! DEFINITION. The operations every command shares: lane rotation (spec/00_scope.md R9), error entry and the
frame in which a command runs (spec/60_exceptions.md R202 to R204). There is no return from an error: only
reset leaves it (R204), and that is `Machine.applyReset` of Machine/Port.lean. -/

namespace Sys2Proof.Machine

/-- `ROTL(a, n)` for `n < 64` (R9). -/
def rotl (a : Lane) (n : Nat) : Lane :=
  if n = 0 then a else (a <<< n) ||| (a >>> (64 - n))

/-- The lane file with every byte 0 (R141, R230). -/
def zeroLanes : LaneFile := Vector.replicate 25 0

/-- Error entry, `raise Error(cause)` (R203): `ERR` and `ERR_CAUSE` are written, and nothing else. -/
def raiseError (c : ErrorCause) (s : State) : State :=
  { s with err := true, errCause := causeCode c }

/-- What a command does: the state its effect leaves, or the cause its own check raises (R202 item 4). -/
abbrev Body := State → Except ErrorCause State

/-- A command runs: ignored while `ERR = 1` (R204), otherwise its check, then its effect or error entry. A body
that raises has written nothing, so an error is precise (R203). -/
def perform (body : Body) (s : State) : State :=
  if s.err then s
  else
    match body s with
    | .ok t => t
    | .error c => raiseError c s

/-- The outcome of a command: always a next state (R200, R203). -/
def runCommand (body : Body) (s : State) : Host.Outcome State Fault Refusal :=
  .next (perform body s)

end Sys2Proof.Machine
end

