-- ==== Sys2Proof/Machine/Permutation.lean ====
section
/-! DEFINITION. The permutation unit, Keccak-f[1600, 24], step by step, and the command `PERMUTE`
(spec/40_permutation.md R100 to R111). Coordinates are `Fin 5`, whose addition is modulo 5 as R9 asks. The
tables and index formulas the spec marks as general knowledge are in log entry 10. -/

namespace Sys2Proof.Machine

/-- `C[x]`, the parity of column x (R103). -/
def columnParity (a : LaneFile) (x : Fin 5) : Lane :=
  laneAt a x 0 ^^^ laneAt a x 1 ^^^ laneAt a x 2 ^^^ laneAt a x 3 ^^^ laneAt a x 4

/-- `D[x] = C[x-1] XOR ROTL(C[x+1], 1)`, where `x - 1` is `x + 4` modulo 5 (R103, R9). -/
def thetaOffset (a : LaneFile) (x : Fin 5) : Lane :=
  columnParity a (x + 4) ^^^ rotl (columnParity a (x + 1)) 1

/-- θ (R103). -/
def theta (a : LaneFile) : LaneFile := ofGrid fun x y => laneAt a x y ^^^ thetaOffset a x

/-- The offsets `r[x,y]` by lane index `x + 5y` (R104). -/
def rhoTable : Vector Nat 25 :=
  #v[0, 1, 62, 28, 27,
     36, 44, 6, 55, 20,
     3, 10, 43, 25, 39,
     41, 45, 15, 21, 8,
     18, 2, 61, 56, 14]

/-- `r[x,y]` (R104). -/
def rhoOffset (x y : Fin 5) : Nat := rhoTable[x.val + 5 * y.val]

/-- ρ (R104). -/
def rho (a : LaneFile) : LaneFile := ofGrid fun x y => rotl (laneAt a x y) (rhoOffset x y)

/-- π (R105). -/
def piStep (a : LaneFile) : LaneFile := ofGrid fun x y => laneAt a (x + 3 * y) x

/-- χ (R106). -/
def chi (a : LaneFile) : LaneFile :=
  ofGrid fun x y => laneAt a x y ^^^ (~~~laneAt a (x + 1) y &&& laneAt a (x + 2) y)

/-- The table of R108 as it is printed: row r holds `RC[r]`, `RC[r+8]` and `RC[r+16]`. -/
def roundConstantTable : Vector (Vector Lane 3) 8 :=
  #v[#v[0x0000000000000001, 0x000000000000008A, 0x8000000000008002],
     #v[0x0000000000008082, 0x0000000000000088, 0x8000000000000080],
     #v[0x800000000000808A, 0x0000000080008009, 0x000000000000800A],
     #v[0x8000000080008000, 0x000000008000000A, 0x800000008000000A],
     #v[0x000000000000808B, 0x000000008000808B, 0x8000000080008081],
     #v[0x0000000080000001, 0x800000000000008B, 0x8000000000008080],
     #v[0x8000000080008081, 0x8000000000008089, 0x0000000080000001],
     #v[0x8000000000008009, 0x8000000000008003, 0x8000000080008008]]

/-- `RC[i]`, the constant of round i (R108). -/
def roundConstant (i : Fin 24) : Lane := roundConstantTable[i.val % 8][i.val / 8]

/-- ι of round i (R107). -/
def iota (i : Fin 24) (a : LaneFile) : LaneFile :=
  ofGrid fun x y => if x = 0 ∧ y = 0 then laneAt a x y ^^^ roundConstant i else laneAt a x y

/-- `Rnd(A, i) = ι(χ(π(ρ(θ(A)))), i)` (R102). -/
def keccakRound (a : LaneFile) (i : Fin 24) : LaneFile := iota i (chi (piStep (rho (theta a))))

/-- `f`: the rounds 0 to 23 in increasing order (R109). -/
def keccakF (a : LaneFile) : LaneFile := (List.finRange Config.rounds).foldl keccakRound a

/-- An invocation of `f` on a session: the whole lane file, and `UNTOUCHED <- 0` (R32, R111). -/
def Session.permute (ss : Session) : Session :=
  { ss with lanes := keccakF ss.lanes, untouched := false }

/-- `PERMUTE` (R111): legal in both phases, with no check of its own. -/
def permuteBody : Body := fun s => .ok { s with session := s.session.permute }

/-- `PERMUTE` (R111). -/
def execPermute (s : State) : Host.Outcome State Fault Refusal := runCommand permuteBody s

end Sys2Proof.Machine
end

