-- ==== Sys2Proof/Machine/SessionControl.lean ====
section
/-! DEFINITION. Session control: `NOP`, `SAVE`, `RESTORE` (spec/42_session_control.md R180 to R182). -/

namespace Sys2Proof.Machine

/-- `NOP` (R180): no state changes. -/
def nopBody : Body := fun s => .ok s

/-- `SAVE` (R181): every session field is copied to `SV`, and `SAVE_VALID <- 1`. -/
def saveBody : Body := fun s => .ok { s with sv := s.session, saveValid := true }

/-- `RESTORE` (R182): every session field is copied back; the checkpoint stays. -/
def restoreBody : Body := fun s =>
  if s.saveValid then .ok { s with session := s.sv } else .error .noSavedContext

/-- `NOP` (R180). -/
def execNop (s : State) : Host.Outcome State Fault Refusal := runCommand nopBody s

/-- `SAVE` (R181). -/
def execSave (s : State) : Host.Outcome State Fault Refusal := runCommand saveBody s

/-- `RESTORE` (R182). -/
def execRestore (s : State) : Host.Outcome State Fault Refusal := runCommand restoreBody s

end Sys2Proof.Machine
end

