-- ==== Sys2Proof/Machine/Sponge.lean ====
section
/-! DEFINITION. The sponge controller: `INIT`, `ABSORB`, `XORB`, `FINALIZE` (spec/41_sponge.md R140 to R147).
Byte indices and offsets are computed on naturals (R8). -/

namespace Sys2Proof.Machine

/-- The session `INIT rate, delim` starts (R141). -/
def newSession (rate delim : Byte) : Session :=
  { lanes := zeroLanes, offset := 0, rate := rate, delim := delim, untouched := true,
    phase := .absorbing }

/-- `INIT` (R141): the rate is checked before any write. -/
def initBody (rate delim : Byte) : Body := fun s =>
  if rateLegal rate then .ok { s with session := newSession rate delim }
  else .error .badRate

/-- `CompleteBlock()` (R143). -/
def Session.completeBlock (ss : Session) : Session := { ss.permute with offset := 0 }

/-- `S[OFFSET] <- S[OFFSET] XOR byte; OFFSET <- OFFSET + 1` (R142). -/
def Session.fill (ss : Session) (byte : Byte) : Session :=
  { ss with
    lanes := xorByteAt ss.lanes ss.offset.toNat byte
    offset := BitVec.ofNat 8 (ss.offset.toNat + 1) }

/-- One absorbed byte, and the completed block where it was the block's last (R142, R143). -/
def Session.absorbByte (ss : Session) (byte : Byte) : Session :=
  if ss.offset.toNat + 1 = ss.rate.toNat then (ss.fill byte).completeBlock else ss.fill byte

/-- `ABSORB` (R142). -/
def absorbBody (byte : Byte) : Body := fun s =>
  match s.session.phase with
  | .finalized => .error .sessionFinalized
  | .absorbing => .ok { s with session := s.session.absorbByte byte }

/-- `S[index] <- S[index] XOR value; UNTOUCHED <- 0` (R144). -/
def Session.xorByte (ss : Session) (index value : Byte) : Session :=
  { ss with lanes := xorByteAt ss.lanes index.toNat value, untouched := false }

/-- `XORB` (R144): the index is checked before any write; legal in both phases. -/
def xorbBody (index value : Byte) : Body := fun s =>
  if indexLegal index then .ok { s with session := s.session.xorByte index value }
  else .error .badIndex

/-- `Pad()` (R145): the delimiter at `OFFSET`, then 0x80 at `RATE - 1`, one after the other. -/
def Session.pad (ss : Session) : Session :=
  { ss with lanes := xorByteAt (xorByteAt ss.lanes ss.offset.toNat ss.delim) (ss.rate.toNat - 1) 0x80 }

/-- `Squeeze()` (R146): the first 32 bytes of the state. -/
def squeeze (a : LaneFile) : Digest := Vector.ofFn fun j => byteAt a j.val

/-- The session that `FINALIZE` leaves: padded, permuted, FINALIZED (R147). -/
def Session.finalize (ss : Session) : Session := { ss.pad.permute with phase := .finalized }

/-- `FINALIZE` (R147). -/
def finalizeBody : Body := fun s =>
  match s.session.phase with
  | .finalized => .error .sessionFinalized
  | .absorbing => .ok { s with session := s.session.finalize, out := squeeze s.session.finalize.lanes }

/-- `INIT` (R141). -/
def execInit (rate delim : Byte) (s : State) : Host.Outcome State Fault Refusal :=
  runCommand (initBody rate delim) s

/-- `ABSORB` (R142). -/
def execAbsorb (byte : Byte) (s : State) : Host.Outcome State Fault Refusal :=
  runCommand (absorbBody byte) s

/-- `XORB` (R144). -/
def execXorb (index value : Byte) (s : State) : Host.Outcome State Fault Refusal :=
  runCommand (xorbBody index value) s

/-- `FINALIZE` (R147). -/
def execFinalize (s : State) : Host.Outcome State Fault Refusal := runCommand finalizeBody s

end Sys2Proof.Machine
end

