-- ==== Sys2Proof/Machine/Dispatch.lean ====
section
/-! DEFINITION. The dispatch: one arm per command of spec/30_encoding.md R73. -/

namespace Sys2Proof.Machine

def exec (i : Instr) (s : State) : Host.Outcome State Fault Refusal :=
  match i with
  | .nop => Sys2Proof.Machine.execNop s
  | .init rate delim => Sys2Proof.Machine.execInit rate delim s
  | .absorb byte => Sys2Proof.Machine.execAbsorb byte s
  | .xorb index value => Sys2Proof.Machine.execXorb index value s
  | .permute => Sys2Proof.Machine.execPermute s
  | .finalize => Sys2Proof.Machine.execFinalize s
  | .save => Sys2Proof.Machine.execSave s
  | .restore => Sys2Proof.Machine.execRestore s

end Sys2Proof.Machine
end

