-- ==== Sys2Proof/Machine/Window.lean ====
section
/-! DEFINITION. The host's read window of 256 bytes (spec/20_memory.md R51, R52, R61; spec/10_state.md R39).
It covers every register but `UNTOUCHED` and `SV`. -/

namespace Sys2Proof.Machine

/-- `ReadByte(a)` (R51). A function of the state to a byte: a read has no side effect on the block (R52). -/
def readByte (s : State) (a : Byte) : Byte :=
  if a.toNat < 0xC8 then byteAt s.session.lanes a.toNat
  else if a.toNat = 0xC8 then s.session.offset
  else if a.toNat = 0xC9 then s.session.rate
  else if a.toNat = 0xCA then s.session.delim
  else if a.toNat = 0xCB then statusByte s
  else if a.toNat = 0xCC then s.errCause
  else if a.toNat < 0xD0 then 0x00
  else if a.toNat < 0xF0 then outAt s.out (a.toNat - 0xD0)
  else 0x00

end Sys2Proof.Machine
end

