-- ==== Sys2Proof/Machine/Port.lean ====
section
/-! DEFINITION. The host's ports: taking the next transaction of the host's list (spec/10_state.md R35;
spec/70_reset_and_hazards.md R239), `IssueCommand` and `ReadByte` (spec/20_memory.md R51 to R53, R62), and the
reset input (R230, R231). -/

namespace Sys2Proof.Machine

/-- The host's next transaction; none when the list is exhausted (R239). -/
def nextTransaction (s : State) : Option Transaction := s.transactions[s.pc]?

/-- The host has issued one more transaction (R35). -/
def advance (s : State) : State := { s with pc := s.pc + 1 }

/-- `IssueCommand(w)` (R53), with the priority of R202: ignored while `ERR = 1`, then the decoder's verdict,
then the command. -/
def issueCommand (w : CommandWord) (s : State) : Host.Outcome State Fault Refusal :=
  match decode w with
  | .command i => exec i s
  | .illegal c => runCommand (fun _ => .error c) s

/-- `ReadByte(a)` (R51, R52): the host gets the byte, and the block keeps its state. -/
def answerRead (a : Byte) (s : State) : State := { s with answers := readByte s a :: s.answers }

/-- Reset (R230, R231): every register of the block takes its reset value, whatever came before. The host's
list, its place in it and the bytes it has read are the host's and stay (log entry 2). -/
def applyReset (s : State) : State :=
  { State.reset with transactions := s.transactions, pc := s.pc, answers := s.answers }

/-- One transaction, completely and before the next (R5, R62). -/
def serve (t : Transaction) (s : State) : Host.Outcome State Fault Refusal :=
  match t with
  | .command w => issueCommand w s
  | .read a => .next (answerRead a s)
  | .reset => .next (applyReset s)

/-- The list with `t` at index `n`; where the list is shorter, words of `NOP` that lie before index `n` fill
it up. -/
def putAt (t : Transaction) : Nat → List Transaction → List Transaction
  | 0, [] => [t]
  | 0, _ :: rest => t :: rest
  | n + 1, [] => .command 0 :: putAt t n []
  | n + 1, u :: rest => u :: putAt t n rest

/-- The host's list with the command word `w` as its next transaction. -/
def loadWord (w : CommandWord) (s : State) : State :=
  { s with transactions := putAt (.command w) s.pc s.transactions }

end Sys2Proof.Machine
end

