-- ==== Sys2Proof/Machine/Step.lean ====
section
/-! DEFINITION. One step of the machine: the host's next transaction, served completely
(spec/00_scope.md R5; spec/20_memory.md R62). -/

namespace Sys2Proof.Machine

/-- One step: the next transaction of the host's list is taken and served. With the list exhausted the run has
ended (R239), no transaction reaches the block, and it keeps all its state (R215; log entry 3). -/
def step (s : State) : Host.Outcome State Fault Refusal :=
  match nextTransaction s with
  | some t => serve t (advance s)
  | none => .next s

/-- The state whose next transaction issues the word of spec/opcode_table.json's numbering: it stands for the
host loading that word into its list (R53; log entry 2). -/
def State.withFetchWord (s : State) (nbits w : Nat) : State := loadWord (tableWord nbits w) s

end Sys2Proof.Machine
end

