-- ==== Sys2Proof/Machine/Platform.lean ====
section
/-! DEFINITION. Where the block meets a platform: the OPEN parameters (spec/00_scope.md R7), which no command and no
step reads (spec/70_reset_and_hazards.md R238; spec/20_memory.md R61; log entry 6), and several instances of the
block side by side (spec/60_exceptions.md R211; spec/42_session_control.md R184). -/

namespace Sys2Proof.Machine

/-- Where window address `a` stands in a host's address space: from `WINDOW_BASE` on (R61). -/
def windowAddress (a : Byte) : Nat := Config.windowBase + a.toNat

/-- The window address that a platform address stands for; none outside the window's 256 bytes (R51, R61). -/
def windowOf (p : Nat) : Option Byte :=
  if Config.windowBase ≤ p ∧ p < Config.windowBase + Config.windowBytes then
    some (BitVec.ofNat 8 (p - Config.windowBase))
  else none

/-- The byte a host reads at a platform address; none where the window does not answer. -/
def platformRead (s : State) (p : Nat) : Option Byte := (windowOf p).map (readByte s)

/-- `LAT_<command>`: how many cycles a command takes (R7, R238). -/
def latency : Instr → Nat
  | .nop => Config.latNop
  | .init _ _ => Config.latInit
  | .absorb _ => Config.latAbsorb
  | .xorb _ _ => Config.latXorb
  | .permute => Config.latPermute
  | .finalize => Config.latFinalize
  | .save => Config.latSave
  | .restore => Config.latRestore

/-- A system of block instances, each with its own registers, command port, read window, reset and host (R211). -/
abbrev System := List State

/-- Instance `k` takes a step (R211). Where there is no such instance, nothing happens. -/
def System.stepAt (k : Nat) (sys : System) : System :=
  match sys[k]? with
  | none => sys
  | some s =>
    match step s with
    | .next t => sys.set k t
    | .fault _ => sys
    | .refused _ => sys

end Sys2Proof.Machine
end

