-- ==== Sys2Proof/Machine/LoopForm.lean ====
section
/-! DEFINITION. The table-driven form of the round on `a[0..24]` that spec/40_permutation.md R110 gives beside
the step-by-step definition. Both must give the same `f`; the machine uses the step-by-step one. -/

namespace Sys2Proof.Machine

/-- `RHO[0..23]` (R110). -/
def rhoWalk : List Nat :=
  [1, 3, 6, 10, 15, 21, 28, 36, 45, 55, 2, 14,
   27, 41, 56, 8, 25, 43, 62, 18, 39, 61, 20, 44]

/-- `PI[0..23]` (R110). -/
def piWalk : List Nat :=
  [10, 7, 11, 17, 18, 3, 5, 16, 8, 21, 24, 4,
   15, 23, 19, 13, 12, 2, 20, 14, 22, 9, 6, 1]

/-- `c[x] = a[x] XOR a[x+5] XOR a[x+10] XOR a[x+15] XOR a[x+20]` (R110). -/
def loopParity (a : LaneFile) (x : Nat) : Lane :=
  laneOf a x ^^^ laneOf a (x + 5) ^^^ laneOf a (x + 10) ^^^ laneOf a (x + 15) ^^^ laneOf a (x + 20)

/-- `a[5y+x] ^= c[(x+4) mod 5] XOR ROTL(c[(x+1) mod 5], 1)` for every lane index (R110). -/
def loopTheta (a : LaneFile) : LaneFile :=
  Vector.ofFn fun L =>
    laneOf a L.val ^^^ (loopParity a ((L.val + 4) % 5) ^^^ rotl (loopParity a ((L.val + 1) % 5)) 1)

/-- One step of the walk: `tmp = a[PI[t]]; a[PI[t]] = ROTL(last, RHO[t]); last = tmp` (R110). -/
def walkStep (st : LaneFile × Lane) (t : Nat × Nat) : LaneFile × Lane :=
  (st.1.setIfInBounds t.1 (rotl st.2 t.2), laneOf st.1 t.1)

/-- ρ and π together: the walk of 24 steps from `last = a[1]` (R110). -/
def loopRhoPi (a : LaneFile) : LaneFile := ((piWalk.zip rhoWalk).foldl walkStep (a, laneOf a 1)).1

/-- `a[5y+x] = row[x] XOR ((NOT row[(x+1) mod 5]) AND row[(x+2) mod 5])` (R110). -/
def loopChi (a : LaneFile) : LaneFile :=
  Vector.ofFn fun L =>
    laneOf a L.val ^^^
      (~~~laneOf a (5 * (L.val / 5) + (L.val + 1) % 5) &&& laneOf a (5 * (L.val / 5) + (L.val + 2) % 5))

/-- `round(a, i)` of R110. -/
def loopRound (a : LaneFile) (i : Fin 24) : LaneFile :=
  let b := loopChi (loopRhoPi (loopTheta a))
  b.setIfInBounds 0 (laneOf b 0 ^^^ roundConstant i)

/-- `f` by 24 rounds of the loop form (R109, R110). -/
def loopF (a : LaneFile) : LaneFile := (List.finRange Config.rounds).foldl loopRound a

end Sys2Proof.Machine
end

