-- ==== Sys2Proof/Machine/Pseudo.lean ====
section
/-! DEFINITION. The pseudo-instructions and their expansions (spec/30_encoding.md R79), and a sequence of
commands run one after the other (spec/20_memory.md R62). -/

namespace Sys2Proof.Machine

/-- `UPDATE bytes`: one `ABSORB` per byte, in order (R79, R148). -/
def updateCommands (bytes : List Byte) : List Instr := bytes.map Instr.absorb

/-- `KECCAK256 bytes`: `INIT 136, 0x01`, `UPDATE bytes`, `FINALIZE` (R79, R149). -/
def keccak256Commands (bytes : List Byte) : List Instr :=
  .init 136 0x01 :: (updateCommands bytes ++ [.finalize])

/-- `XORLANE x, y, v`: eight `XORB`, byte k of `v` at index `8(x+5y)+k` (R79, R155). -/
def xorLaneCommands (x y : Fin 5) (v : Lane) : List Instr :=
  (List.range 8).map fun k =>
    .xorb (BitVec.ofNat 8 (8 * (x.val + 5 * y.val) + k)) (v.extractLsb' (8 * k) 8)

/-- Commands issued one after the other (R62). -/
def runCommands : List Instr → State → Host.Outcome State Fault Refusal
  | [], s => .next s
  | i :: rest, s =>
    match exec i s with
    | .next t => runCommands rest t
    | .fault r => .fault r
    | .refused r => .refused r

end Sys2Proof.Machine
end

