-- ==== Sys2Proof/Machine/Reference.lean ====
section
/-! DEFINITION. The sponge on whole messages, written without the machine's bookkeeping: the source's block-wise
`update` (spec/41_sponge.md R148, R150) and the digest of a padded message (R145 to R149, R152). The machine
absorbs one byte a command; these say what that adds up to. -/

namespace Sys2Proof.Machine

/-- The bytes XORed into consecutive positions from `o` on (R148). -/
def xorBytesAt (a : LaneFile) (o : Nat) : List Byte → LaneFile
  | [] => a
  | b :: rest => xorBytesAt (xorByteAt a o b) (o + 1) rest

/-- What block-wise absorption has reached: the lane file, the position, and how many times `f` ran. -/
structure Absorbed where
  lanes : LaneFile
  position : Nat
  permutations : Nat
  deriving DecidableEq, Repr

/-- The source's `update`: fill the block up to `rate`, permute, go back to position 0, go on with the remaining
bytes; leftover bytes stay XORed in (R148). `fuel` bounds the number of blocks; the message's length suffices. -/
def absorbBlocks (rate : Nat) : Nat → Absorbed → List Byte → Absorbed
  | 0, st, _ => st
  | fuel + 1, st, m =>
    if st.position + m.length < rate then
      { st with lanes := xorBytesAt st.lanes st.position m, position := st.position + m.length }
    else
      absorbBlocks rate fuel
        { lanes := keccakF (xorBytesAt st.lanes st.position (m.take (rate - st.position)))
          position := 0
          permutations := st.permutations + 1 }
        (m.drop (rate - st.position))

/-- The message followed by the multi-rate padding of R145, up to a whole number of blocks: the delimiter byte,
zeros, and 0x80 as the last byte, or both in one byte where a single byte is left. -/
def padMessage (rate : Nat) (delim : Byte) (m : List Byte) : List Byte :=
  let left := rate - m.length % rate
  if left = 1 then m ++ [delim ^^^ 0x80]
  else m ++ [delim] ++ List.replicate (left - 2) 0 ++ [0x80]

/-- The bits of a message, the low bit of each byte first (R152, a reading the spec marks as general knowledge: log
entry 10). -/
def bitString (m : List Byte) : List Bool := m.flatMap fun b => (List.range 8).map b.getLsbD

/-- The first `n` blocks of `rate` bytes. -/
def blocksOf (rate : Nat) : Nat → List Byte → List (List Byte)
  | 0, _ => []
  | n + 1, m => m.take rate :: blocksOf rate n (m.drop rate)

/-- The sponge's 32-byte output on a message: XOR each block of the padded message into the state and permute,
then read the first 32 bytes. -/
def spongeDigest (rate : Nat) (delim : Byte) (m : List Byte) : Digest :=
  squeeze ((blocksOf rate (m.length / rate + 1) (padMessage rate delim m)).foldl
    (fun a block => keccakF (xorBytesAt a 0 block)) zeroLanes)

end Sys2Proof.Machine
end

