-- ==== Sys2Proof/Safety.lean ====
section
/-! DEFINITION. The terms in which claims speak of safe states and runs: the invariant of the state between
transactions (spec/10_state.md R23, R24, R29, R33), normal and faulted ends (spec/60_exceptions.md R205;
spec/70_reset_and_hazards.md R239), and states that differ only in what no host can observe (R31, R32, R154). -/

namespace Sys2Proof.Machine

/-- A session between commands: the rate is legal (R24), the position is below it (R23), and an untouched session
holds zeros from its position on (R33). -/
abbrev Session.Wf (ss : Session) : Prop :=
  rateLegal ss.rate = true ∧ ss.offset.toNat < ss.rate.toNat ∧
    (ss.untouched = true → ∀ i < 200, ss.offset.toNat ≤ i → byteAt ss.lanes i = 0)

/-- The cause register agrees with `ERR`: no cause without an error, and an error has one of the six causes
(R29, R201). -/
abbrev State.CauseWf (s : State) : Prop :=
  if s.err then 1 ≤ s.errCause.toNat ∧ s.errCause.toNat ≤ 6 else s.errCause = 0

/-- The invariant between transactions: the live session is well formed, a valid checkpoint is too, and the error
registers agree. -/
abbrev State.Inv (s : State) : Prop :=
  s.session.Wf ∧ (s.saveValid = true → s.sv.Wf) ∧ s.CauseWf

/-- The host's list is exhausted: the run has ended (R239). -/
abbrev State.Ended (s : State) : Prop := s.transactions.length ≤ s.pc

/-- A faulted state (R205, R239). -/
abbrev State.Faulted (s : State) : Prop := s.err = true

/-- The end that R239 asks of a normal run: the list is exhausted and `ERR = 0`. A state alone does not show whether
an error came before it; `State.RunEndsNormally` is about the whole run. -/
abbrev State.NormalEnd (s : State) : Prop := s.Ended ∧ ¬s.Faulted

/-- The states of `k` steps from `s`, with `s` itself first. -/
def runStates : Nat → State → List State
  | 0, s => [s]
  | k + 1, s =>
    match step s with
    | .next t => s :: runStates k t
    | .fault _ => [s]
    | .refused _ => [s]

/-- How many transactions of the host's list are still to be served. -/
def State.remaining (s : State) : Nat := s.transactions.length - s.pc

/-- The states of the whole run from `s`, to the end of the host's list (R239). -/
def State.wholeRun (s : State) : List State := runStates s.remaining s

/-- A faulted run (R205): one in which `ERR` becomes 1, at any point, whatever follows it. -/
abbrev State.RunFaulted (s : State) : Prop := ∃ t ∈ s.wholeRun, t.Faulted

/-- A run that ends normally (R205, R239): its last state is a normal end, and `ERR` became 1 at no point of it
(log entry 4). -/
abbrev State.RunEndsNormally (s : State) : Prop :=
  (∃ t, s.wholeRun.getLast? = some t ∧ t.NormalEnd) ∧ ¬s.RunFaulted

/-- The state with the `UNTOUCHED` flags of the live session and of the slot cleared: what is left is all that
`UNTOUCHED` must not influence (R32, R154). -/
def State.withoutUntouched (s : State) : State :=
  { s with session := { s.session with untouched := false }, sv := { s.sv with untouched := false } }

/-- The state with the slot's contents blanked while no checkpoint is valid: what is left is all that those
contents must not influence (R31). -/
def State.withoutInvalidSlot (s : State) : State :=
  if s.saveValid then s else { s with sv := Session.blank }

end Sys2Proof.Machine
end

