-- ==== Sys2Proof/Certificates/Slice0/Obligations.lean ====
section
/-! DEFINITION. The statements for the provers. Each docstring names the rule of spec/ it formalises, or says what
the statement is derived from. Nothing is proved here. -/

open Sys2Proof Sys2Proof.Machine

/-! ### Encoding -/

/-- R80 (the spec's own inference from R71 and R73): each worked encoding is the command's word, and decodes to it. -/
def Obligations.WorkedEncodings : Prop :=
  ∀ p ∈ ([(.init 136 0x01, 0x00018801), (.init 136 0x06, 0x00068801), (.init 168 0x1F, 0x001FA801),
          (.absorb 0x61, 0x00006102), (.absorb 0x00, 0x00000002), (.xorb 199 0xFF, 0x00FFC703),
          (.xorb 0 0x01, 0x00010003), (.permute, 0x00000004), (.finalize, 0x00000005), (.save, 0x00000006),
          (.restore, 0x00000007), (.nop, 0x00000000)] : List (Instr × CommandWord)),
    encode p.1 = p.2 ∧ decode p.2 = .command p.1

/-- Derived from R71, R72, R73 and R76: decoding and encoding are inverse, with every operand at every value. -/
def Obligations.DecodeAndEncodeAreInverse : Prop :=
  (∀ i : Instr, decode (encode i) = .command i) ∧
  (∀ (w : CommandWord) (i : Instr), decode w = .command i → encode i = w)

/-- R73: a word encodes a command of a row exactly when `(w AND mask) = match`; the rows are disjoint; the operands
are the fields A and B; opcodes 0x08 to 0xFF are illegal. -/
def Obligations.OpcodeMapRowsAreTheCommands : Prop :=
  (∀ (w : CommandWord), ∀ row ∈ opcodeTable,
    (w &&& row.mask = row.matchBits) ↔ ∃ i, decode w = .command i ∧ i.mnemonic = row.mnemonic) ∧
  opcodeTable.Pairwise (fun r q => ∀ w : CommandWord, ¬(w &&& r.mask = r.matchBits ∧ w &&& q.mask = q.matchBits)) ∧
  (∀ (w : CommandWord) (i : Instr), decode w = .command i →
    (i.mnemonic.opcode = w.extractLsb' 0 8 ∧
      i.operandA = w.extractLsb' 8 8 ∧ i.operandB = w.extractLsb' 16 8)) ∧
  (∀ w : CommandWord, 0x08 ≤ (w.extractLsb' 0 8).toNat → decode w = .illegal .illegalOpcode)

/-- R75: an opcode of 0x08 or more is illegal whatever the other fields hold, and issuing the word raises
ILLEGAL_OPCODE (0x01) and does nothing else. -/
def Obligations.IllegalOpcodeRaises : Prop :=
  ∀ (w : CommandWord) (s : State), 0x08 ≤ (w.extractLsb' 0 8).toNat →
    decode w = .illegal .illegalOpcode ∧
    (s.err = false → issueCommand w s = .next { s with err := true, errCause := 0x01 })

/-- R74: a word with an opcode below 0x08 that matches no row is illegal, and issuing it raises RESERVED_NONZERO
(0x02) and does nothing else. -/
def Obligations.ReservedNonzeroRaises : Prop :=
  ∀ (w : CommandWord) (s : State), (w.extractLsb' 0 8).toNat < 0x08 →
    (∀ row ∈ opcodeTable, w &&& row.mask ≠ row.matchBits) →
    decode w = .illegal .reservedNonzero ∧
    (s.err = false → issueCommand w s = .next { s with err := true, errCause := 0x02 })

/-- R78: the assembler refuses exactly a wrong operand count or an operand above 255; every command has an assembly
form that it accepts; `INIT 8, 1` and `XORB 200, 1` assemble. -/
def Obligations.AssemblerChecksCountAndRange : Prop :=
  (∀ c : AsmCommand, c.toInstr = none ↔
    (c.operands.length ≠ c.mnemonic.operandCount ∨ ∃ v ∈ c.operands, 256 ≤ v)) ∧
  (∀ i : Instr, i.source.toInstr = some i) ∧
  AsmCommand.toInstr ⟨.init, [8, 1]⟩ = some (.init 8 1) ∧
  AsmCommand.toInstr ⟨.xorb, [200, 1]⟩ = some (.xorb 200 1)

/-! ### The step -/

/-- Derived from R5, R53 and R62: when the host's next transaction is a command word that decodes to a command, a step is
that command, run with the host's index moved on. -/
def Obligations.StepRunsTheDecodedCommand : Prop :=
  ∀ (s : State) (w : CommandWord) (i : Instr), s.transactions[s.pc]? = some (.command w) →
    decode w = .command i → step s = exec i { s with pc := s.pc + 1 }

/-- Derived from R51, R53, R202, R204, R230 and R239: what a step is for an illegal word, for a read, and with the list
exhausted. That an exhausted list leaves the state as it is, is the model's choice (log entry 3). -/
def Obligations.StepServesIllegalWordsReadsAndTheEnd : Prop :=
  (∀ (s : State) (w : CommandWord) (c : ErrorCause), s.transactions[s.pc]? = some (.command w) →
    decode w = .illegal c →
    step s = .next (if s.err then { s with pc := s.pc + 1 }
      else { s with pc := s.pc + 1, err := true, errCause := causeCode c })) ∧
  (∀ (s : State) (a : Byte), s.transactions[s.pc]? = some (.read a) →
    step s = .next { s with pc := s.pc + 1, answers := readByte s a :: s.answers }) ∧
  (∀ s : State, s.transactions[s.pc]? = none → step s = .next s)

/-- Derived from R5, R200 and R203, with two of the model's own readings: that an error is a next state and no stop of
the step (log entry 4, DEDUCED), and that a step with the list exhausted answers the same state (log entry 3, DESIGN
CHOICE). Every step answers a next state. -/
def Obligations.EveryStepAnswersANextState : Prop :=
  ∀ s : State, ∃ t, step s = .next t

/-- Derived from R35 and R65: no step changes the host's list, a transaction served moves the host's index on by one, and
nothing already read is lost. -/
def Obligations.StepKeepsTheHostsList : Prop :=
  ∀ s t : State, step s = .next t →
    t.transactions = s.transactions ∧
    t.pc = (if s.pc < s.transactions.length then s.pc + 1 else s.pc) ∧
    (t.answers = s.answers ∨ ∃ a, s.transactions[s.pc]? = some (.read a) ∧ t.answers = readByte s a :: s.answers)

/-- Derived from R53 and R35; how a word is loaded is the model's choice (log entry 2): the loaded word is the next
transaction, no other transaction of the list changes, and no register does. -/
def Obligations.FetchWordIsTheNextCommand : Prop :=
  ∀ (s : State) (w : CommandWord),
    (s.withFetchWord 32 w.toNat).transactions[s.pc]? = some (.command w) ∧
    (∀ k, k < s.transactions.length → k ≠ s.pc →
      (s.withFetchWord 32 w.toNat).transactions[k]? = s.transactions[k]?) ∧
    { s.withFetchWord 32 w.toNat with transactions := s.transactions } = s

/-! ### The commands -/

/-- R180: `NOP` changes no register, in either phase, with or without an error; its word is 0x00000000 and any other
word with opcode 0x00 is RESERVED_NONZERO. -/
def Obligations.NopChangesNothing : Prop :=
  (∀ s : State, exec .nop s = .next s) ∧
  (∀ w : CommandWord, decode w = .command .nop ↔ w = 0x00000000) ∧
  (∀ w : CommandWord, w.extractLsb' 0 8 = 0x00 → w ≠ 0x00000000 → decode w = .illegal .reservedNonzero)

/-- R141: `INIT rate, delim` with a legal rate starts a new session and leaves all else; another rate raises BAD_RATE and
changes nothing else. -/
def Obligations.InitStartsANewSession : Prop :=
  (∀ (rate delim : Byte) (w : CommandWord),
    decode w = .command (.init rate delim) ↔ w = 0x00#8 ++ delim ++ rate ++ 0x01#8) ∧
  ∀ (rate delim : Byte) (s : State), s.err = false →
    (32 ≤ rate.toNat ∧ rate.toNat ≤ 200 →
      ∃ zeros : LaneFile, (∀ i < 200, byteAt zeros i = 0x00) ∧
        exec (.init rate delim) s = .next { s with
          session := { lanes := zeros, offset := 0, rate := rate, delim := delim, untouched := true,
                       phase := .absorbing } }) ∧
    (rate.toNat < 32 ∨ 200 < rate.toNat →
      exec (.init rate delim) s = .next { s with err := true, errCause := 0x03 })

/-- R142 and R143: `ABSORB byte` XORs the byte into `S[OFFSET]` and advances `OFFSET`; when that fills the block, `f`
runs on the whole state, `UNTOUCHED` is cleared and `OFFSET` is 0 again. In the FINALIZED phase it raises
SESSION_FINALIZED. The premises on `OFFSET` and `RATE` are the invariant of R23 and R24. -/
def Obligations.AbsorbXorsAtOffset : Prop :=
  (∀ (byte : Byte) (w : CommandWord),
    decode w = .command (.absorb byte) ↔ w = 0x00#8 ++ 0x00#8 ++ byte ++ 0x02#8) ∧
  ∀ (byte : Byte) (s : State), s.err = false →
    (s.session.phase = .absorbing → s.session.offset.toNat < s.session.rate.toNat → s.session.rate.toNat ≤ 200 →
      ∃ a : LaneFile,
        (∀ i < 200, byteAt a i =
          if i = s.session.offset.toNat then byteAt s.session.lanes i ^^^ byte else byteAt s.session.lanes i) ∧
        exec (.absorb byte) s = .next { s with
          session :=
            if s.session.offset.toNat + 1 = s.session.rate.toNat then
              { s.session with lanes := keccakF a, untouched := false, offset := 0 }
            else { s.session with lanes := a, offset := s.session.offset + 1 } }) ∧
    (s.session.phase = .finalized →
      exec (.absorb byte) s = .next { s with err := true, errCause := 0x05 })

/-- R144: `XORB index, value` XORs one state byte and clears `UNTOUCHED`, in either phase; an index of 200 or more raises
BAD_INDEX. -/
def Obligations.XorbXorsOneByte : Prop :=
  (∀ (index value : Byte) (w : CommandWord),
    decode w = .command (.xorb index value) ↔ w = 0x00#8 ++ value ++ index ++ 0x03#8) ∧
  ∀ (index value : Byte) (s : State), s.err = false →
    (index.toNat < 200 →
      ∃ a : LaneFile,
        (∀ i < 200, byteAt a i =
          if i = index.toNat then byteAt s.session.lanes i ^^^ value else byteAt s.session.lanes i) ∧
        exec (.xorb index value) s = .next { s with
          session := { s.session with lanes := a, untouched := false } }) ∧
    (200 ≤ index.toNat →
      exec (.xorb index value) s = .next { s with err := true, errCause := 0x04 })

/-- R111: `PERMUTE` applies `f` to the whole state and clears `UNTOUCHED`, in either phase, and leaves all else; its word is
0x00000004, any other word with that opcode is RESERVED_NONZERO, and it is ignored while `ERR = 1`. -/
def Obligations.PermuteAppliesF : Prop :=
  (∀ w : CommandWord, decode w = .command .permute ↔ w = 0x00000004) ∧
  (∀ w : CommandWord, w.extractLsb' 0 8 = 0x04 → w ≠ 0x00000004 → decode w = .illegal .reservedNonzero) ∧
  (∀ s : State, s.err = true → exec .permute s = .next s) ∧
  ∀ s : State, s.err = false →
    exec .permute s = .next { s with
      session := { s.session with lanes := keccakF s.session.lanes, untouched := false } }

/-- R145, R146 and R147: `FINALIZE` XORs the delimiter at `OFFSET` and 0x80 at `RATE - 1` (both into one byte where they
meet), applies `f` once, copies the first 32 bytes to `OUT`, clears `UNTOUCHED` and sets FINALIZED. In the FINALIZED
phase it raises SESSION_FINALIZED. The premises on `OFFSET` and `RATE` are the invariant of R23 and R24. -/
def Obligations.FinalizePadsPermutesSqueezes : Prop :=
  (∀ w : CommandWord, decode w = .command .finalize ↔ w = 0x00000005) ∧
  (∀ w : CommandWord, w.extractLsb' 0 8 = 0x05 → w ≠ 0x00000005 → decode w = .illegal .reservedNonzero) ∧
  ∀ s : State, s.err = false →
    (s.session.phase = .absorbing → s.session.offset.toNat < s.session.rate.toNat →
      32 ≤ s.session.rate.toNat → s.session.rate.toNat ≤ 200 →
      ∃ (p : LaneFile) (o : Digest),
        (∀ i < 200, byteAt p i =
          byteAt s.session.lanes i
            ^^^ (if i = s.session.offset.toNat then s.session.delim else 0x00)
            ^^^ (if i = s.session.rate.toNat - 1 then 0x80 else 0x00)) ∧
        (∀ j < 32, outAt o j = byteAt (keccakF p) j) ∧
        exec .finalize s = .next { s with
          session := { s.session with lanes := keccakF p, untouched := false, phase := .finalized }
          out := o }) ∧
    (s.session.phase = .finalized →
      exec .finalize s = .next { s with err := true, errCause := 0x05 })

/-- R181: `SAVE` copies every session field to the slot and sets `SAVE_VALID`, in either phase, and leaves all else. -/
def Obligations.SaveCopiesTheSession : Prop :=
  (∀ w : CommandWord, decode w = .command .save ↔ w = 0x00000006) ∧
  (∀ w : CommandWord, w.extractLsb' 0 8 = 0x06 → w ≠ 0x00000006 → decode w = .illegal .reservedNonzero) ∧
  ∀ s : State, s.err = false →
    exec .save s = .next { s with
      sv := { lanes := s.session.lanes, offset := s.session.offset, rate := s.session.rate,
              delim := s.session.delim, untouched := s.session.untouched, phase := s.session.phase }
      saveValid := true }

/-- R182: `RESTORE` copies every field of a valid slot back and leaves all else, the slot too; with no valid slot it raises
NO_SAVED_CONTEXT. -/
def Obligations.RestoreCopiesTheSlotBack : Prop :=
  (∀ w : CommandWord, decode w = .command .restore ↔ w = 0x00000007) ∧
  (∀ w : CommandWord, w.extractLsb' 0 8 = 0x07 → w ≠ 0x00000007 → decode w = .illegal .reservedNonzero) ∧
  ∀ s : State, s.err = false →
    (s.saveValid = true →
      exec .restore s = .next { s with
        session := { lanes := s.sv.lanes, offset := s.sv.offset, rate := s.sv.rate, delim := s.sv.delim,
                     untouched := s.sv.untouched, phase := s.sv.phase } }) ∧
    (s.saveValid = false →
      exec .restore s = .next { s with err := true, errCause := 0x06 })

/-! ### Errors -/

/-- R204: while `ERR = 1` no word has any effect; reads are still answered; only reset clears `ERR` and `ERR_CAUSE`. -/
def Obligations.ErrorIsStickyUntilReset : Prop :=
  (∀ (s : State) (w : CommandWord), s.err = true → issueCommand w s = .next s) ∧
  (∀ (s : State) (i : Instr), s.err = true → exec i s = .next s) ∧
  (∀ (s : State) (a : Byte), s.err = true → s.transactions[s.pc]? = some (.read a) →
    ∃ t, step s = .next t ∧ t.answers = readByte s a :: s.answers) ∧
  (∀ s t : State, s.err = true → step s = .next t → s.transactions[s.pc]? ≠ some .reset →
    t.err = true ∧ t.errCause = s.errCause) ∧
  (∀ s t : State, step s = .next t → s.transactions[s.pc]? = some .reset → t.err = false ∧ t.errCause = 0x00)

/-- R203: a word that raises an error leaves exactly the state before it, with `ERR` and `ERR_CAUSE` set. -/
def Obligations.ErrorEntryIsPrecise : Prop :=
  ∀ (s t : State) (w : CommandWord), s.err = false → issueCommand w s = .next t → t.err = true →
    ∃ cause : Byte, 0x01 ≤ cause.toNat ∧ cause.toNat ≤ 0x06 ∧ t = { s with err := true, errCause := cause }

/-- R201 and R202: an issued word raises at most one error, and which one, in the order: none while `ERR = 1`,
ILLEGAL_OPCODE, RESERVED_NONZERO, the command's own check. -/
def Obligations.ErrorPriorityAndCauses : Prop :=
  ∀ (s : State) (w : CommandWord) (cause : Byte),
    cause =
      (if s.err then 0x00
       else if 0x08 ≤ (w.extractLsb' 0 8).toNat then 0x01
       else if ∀ row ∈ opcodeTable, w &&& row.mask ≠ row.matchBits then 0x02
       else if w.extractLsb' 0 8 = 0x01 ∧
          ((w.extractLsb' 8 8).toNat < 32 ∨ 200 < (w.extractLsb' 8 8).toNat) then 0x03
       else if w.extractLsb' 0 8 = 0x03 ∧ 200 ≤ (w.extractLsb' 8 8).toNat then 0x04
       else if (w.extractLsb' 0 8 = 0x02 ∨ w.extractLsb' 0 8 = 0x05) ∧ s.session.phase = .finalized then 0x05
       else if w.extractLsb' 0 8 = 0x07 ∧ s.saveValid = false then 0x06
       else 0x00) →
    ∃ t, issueCommand w s = .next t ∧
      if cause = 0x00 then t.err = s.err ∧ t.errCause = s.errCause ∧ (s.err = true → t = s)
      else t = { s with err := true, errCause := cause }

/-- Derived from R205 and R239: a faulted state stays faulted for as many steps as the host's list has no reset, so such a
run has no normal end. -/
def Obligations.FaultedRunHasNoNormalEnd : Prop :=
  ∀ (k : Nat) (s t : State), s.Faulted → .reset ∉ s.transactions → core.run k s = .next t →
    t.Faulted ∧ ¬t.NormalEnd

/-- Derived from R205 and R239 as log entry 4 reads them: a run in which `ERR` is 1 at any point is faulted and does not
end normally, whatever follows, a reset too; and a run in which it never is ends normally, with the list exhausted and
`ERR = 0`. -/
def Obligations.RunWithAnErrorIsFaulted : Prop :=
  (∀ (s t : State) (k : Nat), core.run k s = .next t → t.err = true → s.RunFaulted ∧ ¬s.RunEndsNormally) ∧
  (∀ s : State, (∀ (k : Nat) (t : State), core.run k s = .next t → t.err = false) →
    s.RunEndsNormally ∧
      ∃ t, core.run (s.transactions.length - s.pc) s = .next t ∧ t.transactions.length ≤ t.pc ∧ t.err = false)

/-! ### Reset -/

/-- R230: after reset every register has its reset value, whatever the state before (nothing is claimed of `SV`), and no
step but reset clears `ERR`. -/
def Obligations.ResetSetsEveryRegister : Prop :=
  (∀ s t : State, step s = .next t → s.err = true → t.err = false → s.transactions[s.pc]? = some .reset) ∧
  ∀ s : State, s.transactions[s.pc]? = some .reset →
    ∃ t, step s = .next t ∧
      ∀ u ∈ [t, State.reset],
        (∀ i < 200, byteAt u.session.lanes i = 0x00) ∧ u.session.offset = 0 ∧ u.session.rate = 136 ∧
        u.session.delim = 0x01 ∧ u.session.phase = .absorbing ∧ u.err = false ∧ u.errCause = 0x00 ∧
        (∀ j < 32, outAt u.out j = 0x00) ∧ u.saveValid = false ∧ u.session.untouched = true

/-- R232 (the spec's own inference from R230 and R141): the session after reset is the one `INIT 136, 0x01` creates. -/
def Obligations.ResetSessionIsInit136 : Prop :=
  ∀ s : State, s.err = false →
    ∃ t, exec (.init 136 0x01) s = .next t ∧ t.session = State.reset.session

/-! ### The read window -/

/-- R51: what `ReadByte(a)` returns at each address. -/
def Obligations.ReadWindowMap : Prop :=
  ∀ (s : State) (a : Byte),
    (a.toNat ≤ 0xC7 → readByte s a = byteAt s.session.lanes a.toNat) ∧
    (a = 0xC8 → readByte s a = s.session.offset) ∧
    (a = 0xC9 → readByte s a = s.session.rate) ∧
    (a = 0xCA → readByte s a = s.session.delim) ∧
    (a = 0xCB → readByte s a = statusByte s) ∧
    (a = 0xCC → readByte s a = s.errCause) ∧
    (0xCD ≤ a.toNat ∧ a.toNat ≤ 0xCF → readByte s a = 0x00) ∧
    (0xD0 ≤ a.toNat ∧ a.toNat ≤ 0xEF → readByte s a = outAt s.out (a.toNat - 0xD0)) ∧
    (0xF0 ≤ a.toNat → readByte s a = 0x00)

/-- R52: a read changes nothing of the block, whatever `ERR` is; the host gets the byte. -/
def Obligations.ReadHasNoSideEffect : Prop :=
  ∀ (s : State) (a : Byte), s.transactions[s.pc]? = some (.read a) →
    ∃ t, step s = .next t ∧ t.answers = readByte s a :: s.answers ∧
      { t with pc := s.pc, answers := s.answers } = s ∧ ∀ b, readByte t b = readByte s b

/-- R37: the STATUS byte, read at 0xCB: bit 0 PHASE, bit 1 ERR, bit 2 SAVE_VALID, the others 0; 0x00 after reset. -/
def Obligations.StatusByteBits : Prop :=
  (∀ s : State,
    ((readByte s 0xCB).getLsbD 0 = true ↔ s.session.phase = .finalized) ∧
    (readByte s 0xCB).getLsbD 1 = s.err ∧ (readByte s 0xCB).getLsbD 2 = s.saveValid ∧
    ∀ n, 3 ≤ n → (readByte s 0xCB).getLsbD n = false) ∧
  readByte State.reset 0xCB = 0x00

/-- Derived from R51: the window shows every register but `UNTOUCHED` and the slot's contents; two states that read the
same at every address agree on all the others. -/
def Obligations.WindowShowsEveryOtherRegister : Prop :=
  ∀ s t : State, (∀ a : Byte, readByte s a = readByte t a) →
    s.session.lanes = t.session.lanes ∧ s.session.offset = t.session.offset ∧ s.session.rate = t.session.rate ∧
    s.session.delim = t.session.delim ∧ s.session.phase = t.session.phase ∧ s.err = t.err ∧
    s.errCause = t.errCause ∧ s.out = t.out ∧ s.saveValid = t.saveValid

/-- Derived from R51 and R61: the window stands at 256 consecutive platform addresses from `WINDOW_BASE`, whatever that is,
and answers at no other. -/
def Obligations.PlatformReadsTheWindow : Prop :=
  ∀ s : State,
    (∀ a : Byte, platformRead s (Config.windowBase + a.toNat) = some (readByte s a)) ∧
    (∀ p : Nat, p < Config.windowBase ∨ Config.windowBase + 256 ≤ p → platformRead s p = none)

/-! ### The lane file and the permutation -/

/-- R11: lane (x,y) is the little-endian value of its eight bytes, and each byte is the lane's bits. -/
def Obligations.LaneAndByteViewsAgree : Prop :=
  ∀ (a : LaneFile) (x y : Fin 5),
    (laneAt a x y).toNat =
      ∑ k ∈ Finset.range 8, 2 ^ (8 * k) * (byteAt a (8 * (x.val + 5 * y.val) + k)).toNat ∧
    ∀ k < 8, byteAt a (8 * (x.val + 5 * y.val) + k) = (laneAt a x y).extractLsb' (8 * k) 8

/-- R107: iota XORs the round's constant into lane (0,0) only. -/
def Obligations.IotaChangesLaneZeroOnly : Prop :=
  ∀ (a : LaneFile) (i : Fin 24) (x y : Fin 5),
    laneAt (iota i a) x y = if x = 0 ∧ y = 0 then laneAt a 0 0 ^^^ roundConstant i else laneAt a x y

/-- Derived from R107 and R108, whose constants the spec marks as general knowledge (log entry 10): the constant that
iota of each round XORs into lane (0,0), all 24 of them by value. -/
def Obligations.IotaUsesTheTableOfConstants : Prop :=
  ∀ (a : LaneFile), ∀ p ∈ ([
      (0, 0x0000000000000001), (1, 0x0000000000008082), (2, 0x800000000000808A),
      (3, 0x8000000080008000), (4, 0x000000000000808B), (5, 0x0000000080000001),
      (6, 0x8000000080008081), (7, 0x8000000000008009), (8, 0x000000000000008A),
      (9, 0x0000000000000088), (10, 0x0000000080008009), (11, 0x000000008000000A),
      (12, 0x000000008000808B), (13, 0x800000000000008B), (14, 0x8000000000008089),
      (15, 0x8000000000008003), (16, 0x8000000000008002), (17, 0x8000000000000080),
      (18, 0x000000000000800A), (19, 0x800000008000000A), (20, 0x8000000080008081),
      (21, 0x8000000000008080), (22, 0x0000000080000001), (23, 0x8000000080008008)] : List (Fin 24 × Lane)),
    roundConstant p.1 = p.2 ∧
    ∀ x y : Fin 5, laneAt (iota p.1 a) x y = if x = 0 ∧ y = 0 then laneAt a 0 0 ^^^ p.2 else laneAt a x y

/-- Derived from R102 and R109, whose order of the constants the spec marks as general knowledge (log entry 10): `f` is 24
rounds, round i = 0 to 23 in this order, each theta, rho, pi, chi and then iota of round i. -/
def Obligations.PermutationIsTwentyFourRounds : Prop :=
  ∀ a : LaneFile, ∃ A : Nat → LaneFile,
    A 0 = a ∧ (∀ i : Fin 24, A (i.val + 1) = iota i (chi (piStep (rho (theta (A i.val)))))) ∧ keccakF a = A 24

/-- Derived from R103 to R106, whose index formulas and offsets the spec marks as general knowledge (log entry 10):
theta, rho, pi and chi lane by lane, rho with its 25 offsets by value; pi also by the table `P` of lane indices. -/
def Obligations.StepMappingsLaneByLane : Prop :=
  ∀ (a : LaneFile) (x y : Fin 5),
    laneAt (theta a) x y =
      laneAt a x y ^^^
        ((laneAt a (x - 1) 0 ^^^ laneAt a (x - 1) 1 ^^^ laneAt a (x - 1) 2 ^^^ laneAt a (x - 1) 3 ^^^ laneAt a (x - 1) 4)
          ^^^ (laneAt a (x + 1) 0 ^^^ laneAt a (x + 1) 1 ^^^ laneAt a (x + 1) 2 ^^^ laneAt a (x + 1) 3
            ^^^ laneAt a (x + 1) 4).rotateLeft 1) ∧
    laneAt (rho a) x y =
      (laneAt a x y).rotateLeft
        ([0, 1, 62, 28, 27, 36, 44, 6, 55, 20, 3, 10, 43, 25, 39, 41, 45, 15, 21, 8, 18, 2, 61, 56, 14].getD
          (x.val + 5 * y.val) 0) ∧
    laneAt (piStep a) y (2 * x + 3 * y) = laneAt a x y ∧
    laneOf (piStep a) (x.val + 5 * y.val) =
      laneOf a ([0, 6, 12, 18, 24, 3, 9, 10, 16, 22, 1, 7, 13, 19, 20, 4, 5, 11, 17, 23, 2, 8, 14, 15, 21].getD
        (x.val + 5 * y.val) 0) ∧
    laneAt (chi a) x y = laneAt a x y ^^^ (~~~laneAt a (x + 1) y &&& laneAt a (x + 2) y)

/-- Derived from R112 (the spec's own inference): corner cases of the step mappings and of the first round. -/
def Obligations.PermutationCornerCases : Prop :=
  (∀ a : LaneFile, (∀ x, columnParity a x = 0) → theta a = a) ∧
  (∀ a : LaneFile, laneAt (rho a) 0 0 = laneAt a 0 0 ∧ laneAt (piStep a) 0 0 = laneAt a 0 0) ∧
  (∀ (a : LaneFile) (y : Fin 5), (∀ x, laneAt a x y = 0) → ∀ x, laneAt (chi a) x y = 0) ∧
  (∀ (a : LaneFile) (y : Fin 5), (∀ x, laneAt a x y = 0xFFFFFFFFFFFFFFFF) →
    ∀ x, laneAt (chi a) x y = 0xFFFFFFFFFFFFFFFF) ∧
  (∀ x y : Fin 5, rhoOffset x y < 64) ∧
  (∀ (a : LaneFile), (∀ x y, laneAt a x y = 0) →
    ∀ x y : Fin 5, laneAt (keccakRound a 0) x y = if x = 0 ∧ y = 0 then 0x0000000000000001 else 0)

/-- Derived from R110 (its tables are the spec's general knowledge, log entry 10): the table-driven loop form of `f` and
the step-by-step form give the same state on every input. -/
def Obligations.LoopFormEqualsStepForm : Prop :=
  ∀ a : LaneFile, loopF a = keccakF a

/-- Derived from the remark of R112, marked general knowledge by the spec: `f` is a bijection on states. -/
def Obligations.PermutationIsABijection : Prop :=
  Function.Bijective keccakF

/-! ### Message-level claims -/

/-- Derived from R148 and R150 (the spec's own inferences): `UPDATE` leaves what the source's block-wise algorithm leaves,
ends at `(o + n) mod RATE`, and `f` runs `(o + n) div RATE` times. -/
def Obligations.UpdateIsBlockwiseAbsorption : Prop :=
  ∀ (m : List Byte) (s : State), s.err = false → s.session.phase = .absorbing → s.session.Wf →
    ∃ r : Absorbed,
      r = absorbBlocks s.session.rate.toNat m.length ⟨s.session.lanes, s.session.offset.toNat, 0⟩ m ∧
      r.position = (s.session.offset.toNat + m.length) % s.session.rate.toNat ∧
      r.permutations = (s.session.offset.toNat + m.length) / s.session.rate.toNat ∧
      runCommands (updateCommands m) s = .next { s with
        session := { s.session with
          lanes := r.lanes
          offset := BitVec.ofNat 8 r.position
          untouched := s.session.untouched && r.permutations == 0 } }

/-- Derived from R145 to R149 and R153: from any state without an error, `INIT rate, delim; UPDATE m; FINALIZE` leaves in
`OUT` the sponge's digest of the padded message, which depends on rate, delimiter and message alone. -/
def Obligations.SessionComputesTheSpongeDigest : Prop :=
  ∀ (rate delim : Byte) (m : List Byte) (s : State), s.err = false → 32 ≤ rate.toNat → rate.toNat ≤ 200 →
    ∃ t, runCommands (.init rate delim :: (updateCommands m ++ [.finalize])) s = .next t ∧
      t.err = false ∧ t.out = spongeDigest rate.toNat delim m

/-- Derived from R152, whose reading of bytes as bits the spec marks as general knowledge (log entry 10): with delimiter
0x01 the padding is a 1 bit, the fewest zero bits that fill the last block, and a 1 bit. -/
def Obligations.PaddingIsPad10Star1 : Prop :=
  ∀ (rate : Nat) (m : List Byte), 0 < rate →
    ∃ zeros, zeros + 2 ≤ 8 * rate ∧ 8 * rate ∣ (bitString m).length + zeros + 2 ∧
      bitString (padMessage rate 0x01 m) = bitString m ++ true :: (List.replicate zeros false ++ [true])

/-- Derived from R149 and R234: `KECCAK256 m` from any state without an error, and `UPDATE m; FINALIZE` right after reset,
leave the same digest: that of rate 136 and delimiter 0x01. -/
def Obligations.Keccak256IsReadyAtReset : Prop :=
  ∀ (m : List Byte) (s : State), s.err = false →
    (∃ t, runCommands (keccak256Commands m) s = .next t ∧ t.out = spongeDigest 136 0x01 m) ∧
    (∃ t, runCommands (updateCommands m ++ [.finalize]) State.reset = .next t ∧ t.out = spongeDigest 136 0x01 m)

/-- Derived from R148 and R151 (the spec's own inferences): absorbing a message in chunks, empty ones and splits inside a
block too, leaves what block-wise absorption of the whole message leaves. The first part says so of the block-wise
algorithm, the second of the machine's `UPDATE` of each chunk in order. -/
def Obligations.ChunkingIndependence : Prop :=
  (∀ (rate : Nat) (st : Absorbed) (c₁ c₂ : List Byte), st.position < rate →
    absorbBlocks rate c₂.length (absorbBlocks rate c₁.length st c₁) c₂ =
      absorbBlocks rate (c₁ ++ c₂).length st (c₁ ++ c₂)) ∧
  (∀ (chunks : List (List Byte)) (s : State), s.err = false → s.session.phase = .absorbing → s.session.Wf →
    ∃ r : Absorbed,
      r = absorbBlocks s.session.rate.toNat chunks.flatten.length
        ⟨s.session.lanes, s.session.offset.toNat, 0⟩ chunks.flatten ∧
      runCommands (chunks.map updateCommands).flatten s = .next { s with
        session := { s.session with
          lanes := r.lanes
          offset := BitVec.ofNat 8 r.position
          untouched := s.session.untouched && r.permutations == 0 } })

/-- Derived from R155 (the spec's own inference): `XORLANE x, y, v` XORs `v` into lane (x,y), clears `UNTOUCHED` and leaves
all else. -/
def Obligations.XorLaneXorsOneLane : Prop :=
  ∀ (x y : Fin 5) (v : Lane) (s : State), s.err = false →
    ∃ a : LaneFile,
      (∀ x' y' : Fin 5, laneAt a x' y' =
        if x' = x ∧ y' = y then laneAt s.session.lanes x y ^^^ v else laneAt s.session.lanes x' y') ∧
      runCommands (xorLaneCommands x y v) s = .next { s with
        session := { s.session with lanes := a, untouched := false } }

/-- Derived from R183 (the spec's own inference): commands without `SAVE` keep the checkpoint, and a `RESTORE` after
them that raises no error resumes the session as it was saved. -/
def Obligations.CheckpointIsIndependent : Prop :=
  (∀ (is : List Instr) (s t : State), .save ∉ is → runCommands is s = .next t →
    t.sv = s.sv ∧ t.saveValid = s.saveValid) ∧
  (∀ (is : List Instr) (s t : State), .save ∉ is → s.err = false →
    runCommands (.save :: (is ++ [.restore])) s = .next t → t.err = false →
    t.session = s.session ∧ t.sv = s.session)

/-! ### Whole-machine rules -/

/-- Derived from R30, R230 and R231: `OUT` changes only in a step that issues `FINALIZE` or applies reset. -/
def Obligations.OutIsWrittenOnlyByFinalize : Prop :=
  ∀ s t : State, step s = .next t → t.out ≠ s.out →
    (∃ w, s.transactions[s.pc]? = some (.command w) ∧ decode w = .command .finalize) ∨
    s.transactions[s.pc]? = some .reset

/-- Derived from R24, R25 and R230: `RATE` and `DELIM` change only in a step that issues `INIT` or `RESTORE` or applies
reset. -/
def Obligations.RateAndDelimiterAreImmutable : Prop :=
  ∀ s t : State, step s = .next t → (t.session.rate ≠ s.session.rate ∨ t.session.delim ≠ s.session.delim) →
    (∃ w rate delim, s.transactions[s.pc]? = some (.command w) ∧ decode w = .command (.init rate delim)) ∨
    (∃ w, s.transactions[s.pc]? = some (.command w) ∧ decode w = .command .restore) ∨
    s.transactions[s.pc]? = some .reset

/-- Derived from R23, R24, R29 and R33: the reset state meets the invariant. -/
def Obligations.InvariantHoldsAtReset : Prop :=
  State.reset.Inv

/-- Derived from R23, R24, R29, R201 and R33: every step keeps the invariant: the rate of the live session and of a valid
checkpoint is legal and above the offset, an untouched session holds zeros from its offset on, and `ERR_CAUSE` holds a
cause exactly while `ERR = 1`. -/
def Obligations.StepKeepsTheInvariant : Prop :=
  ∀ s t : State, s.Inv → step s = .next t → t.Inv

/-- Derived from R32 and R154: `UNTOUCHED` has no effect a host can observe. Two states that differ only in it stay so by
every step, and read the same at every address. -/
def Obligations.UntouchedIsUnobservable : Prop :=
  ∀ s t s' t' : State, s.withoutUntouched = t.withoutUntouched → step s = .next s' → step t = .next t' →
    s'.withoutUntouched = t'.withoutUntouched ∧ ∀ a, readByte s' a = readByte t' a

/-- Derived from R154: while a well-formed session is untouched, storing the absorbed byte is XORing it. -/
def Obligations.OverwriteEqualsXorWhileUntouched : Prop :=
  ∀ (ss : Session) (byte : Byte), ss.Wf → ss.untouched = true →
    setByteAt ss.lanes ss.offset.toNat byte = xorByteAt ss.lanes ss.offset.toNat byte

/-- Derived from R31: what the slot holds while no checkpoint is valid (after reset: the model's choice, log entry 1) has no
effect. Two states that differ only in it stay so by every step, and read the same at every address. -/
def Obligations.InvalidSlotIsUnobservable : Prop :=
  ∀ s t s' t' : State, s.withoutInvalidSlot = t.withoutInvalidSlot → step s = .next s' → step t = .next t' →
    s'.withoutInvalidSlot = t'.withoutInvalidSlot ∧ ∀ a, readByte s' a = readByte t' a

/-- Derived from R184 and R211: a step of one block instance changes no other, and steps of two instances do not depend on their order. -/
def Obligations.InstancesDoNotInteract : Prop :=
  (∀ (sys : System) (k l : Nat), l ≠ k → (System.stepAt k sys)[l]? = sys[l]?) ∧
  (∀ (sys : System) (k : Nat) (s t : State), sys[k]? = some s → step s = .next t →
    (System.stepAt k sys)[k]? = some t) ∧
  (∀ (sys : System) (k l : Nat), l ≠ k →
    System.stepAt k (System.stepAt l sys) = System.stepAt l (System.stepAt k sys))
end

