-- ==== Sys2Proof/Laws/State.lean ====
section
/-! SUPPORT. What each named update of the state leaves in each field: one lemma per field per update, so that
no later proof unfolds a record update. -/

namespace Sys2Proof.Machine

@[simp] theorem raiseError_session (c : ErrorCause) (s : State) : (raiseError c s).session = s.session := rfl
@[simp] theorem raiseError_err (c : ErrorCause) (s : State) : (raiseError c s).err = true := rfl
@[simp] theorem raiseError_errCause (c : ErrorCause) (s : State) : (raiseError c s).errCause = causeCode c := rfl
@[simp] theorem raiseError_out (c : ErrorCause) (s : State) : (raiseError c s).out = s.out := rfl
@[simp] theorem raiseError_saveValid (c : ErrorCause) (s : State) : (raiseError c s).saveValid = s.saveValid := rfl
@[simp] theorem raiseError_sv (c : ErrorCause) (s : State) : (raiseError c s).sv = s.sv := rfl
@[simp] theorem raiseError_transactions (c : ErrorCause) (s : State) : (raiseError c s).transactions = s.transactions := rfl
@[simp] theorem raiseError_pc (c : ErrorCause) (s : State) : (raiseError c s).pc = s.pc := rfl
@[simp] theorem raiseError_answers (c : ErrorCause) (s : State) : (raiseError c s).answers = s.answers := rfl

@[simp] theorem advance_session (s : State) : (advance s).session = s.session := rfl
@[simp] theorem advance_err (s : State) : (advance s).err = s.err := rfl
@[simp] theorem advance_errCause (s : State) : (advance s).errCause = s.errCause := rfl
@[simp] theorem advance_out (s : State) : (advance s).out = s.out := rfl
@[simp] theorem advance_saveValid (s : State) : (advance s).saveValid = s.saveValid := rfl
@[simp] theorem advance_sv (s : State) : (advance s).sv = s.sv := rfl
@[simp] theorem advance_transactions (s : State) : (advance s).transactions = s.transactions := rfl
@[simp] theorem advance_pc (s : State) : (advance s).pc = s.pc + 1 := rfl
@[simp] theorem advance_answers (s : State) : (advance s).answers = s.answers := rfl

@[simp] theorem answerRead_session (a : Byte) (s : State) : (answerRead a s).session = s.session := rfl
@[simp] theorem answerRead_err (a : Byte) (s : State) : (answerRead a s).err = s.err := rfl
@[simp] theorem answerRead_errCause (a : Byte) (s : State) : (answerRead a s).errCause = s.errCause := rfl
@[simp] theorem answerRead_out (a : Byte) (s : State) : (answerRead a s).out = s.out := rfl
@[simp] theorem answerRead_saveValid (a : Byte) (s : State) : (answerRead a s).saveValid = s.saveValid := rfl
@[simp] theorem answerRead_sv (a : Byte) (s : State) : (answerRead a s).sv = s.sv := rfl
@[simp] theorem answerRead_transactions (a : Byte) (s : State) : (answerRead a s).transactions = s.transactions := rfl
@[simp] theorem answerRead_pc (a : Byte) (s : State) : (answerRead a s).pc = s.pc := rfl
@[simp] theorem answerRead_answers (a : Byte) (s : State) : (answerRead a s).answers = readByte s a :: s.answers := rfl

@[simp] theorem applyReset_session (s : State) : (applyReset s).session = State.reset.session := rfl
@[simp] theorem applyReset_err (s : State) : (applyReset s).err = State.reset.err := rfl
@[simp] theorem applyReset_errCause (s : State) : (applyReset s).errCause = State.reset.errCause := rfl
@[simp] theorem applyReset_out (s : State) : (applyReset s).out = State.reset.out := rfl
@[simp] theorem applyReset_saveValid (s : State) : (applyReset s).saveValid = State.reset.saveValid := rfl
@[simp] theorem applyReset_sv (s : State) : (applyReset s).sv = State.reset.sv := rfl
@[simp] theorem applyReset_transactions (s : State) : (applyReset s).transactions = s.transactions := rfl
@[simp] theorem applyReset_pc (s : State) : (applyReset s).pc = s.pc := rfl
@[simp] theorem applyReset_answers (s : State) : (applyReset s).answers = s.answers := rfl

@[simp] theorem loadWord_session (w : CommandWord) (s : State) : (loadWord w s).session = s.session := rfl
@[simp] theorem loadWord_err (w : CommandWord) (s : State) : (loadWord w s).err = s.err := rfl
@[simp] theorem loadWord_errCause (w : CommandWord) (s : State) : (loadWord w s).errCause = s.errCause := rfl
@[simp] theorem loadWord_out (w : CommandWord) (s : State) : (loadWord w s).out = s.out := rfl
@[simp] theorem loadWord_saveValid (w : CommandWord) (s : State) : (loadWord w s).saveValid = s.saveValid := rfl
@[simp] theorem loadWord_sv (w : CommandWord) (s : State) : (loadWord w s).sv = s.sv := rfl
@[simp] theorem loadWord_transactions (w : CommandWord) (s : State) : (loadWord w s).transactions = putAt (.command w) s.pc s.transactions := rfl
@[simp] theorem loadWord_pc (w : CommandWord) (s : State) : (loadWord w s).pc = s.pc := rfl
@[simp] theorem loadWord_answers (w : CommandWord) (s : State) : (loadWord w s).answers = s.answers := rfl

@[simp] theorem Session.permute_lanes (ss : Session) : (ss.permute).lanes = keccakF ss.lanes := rfl
@[simp] theorem Session.permute_offset (ss : Session) : (ss.permute).offset = ss.offset := rfl
@[simp] theorem Session.permute_rate (ss : Session) : (ss.permute).rate = ss.rate := rfl
@[simp] theorem Session.permute_delim (ss : Session) : (ss.permute).delim = ss.delim := rfl
@[simp] theorem Session.permute_untouched (ss : Session) : (ss.permute).untouched = false := rfl
@[simp] theorem Session.permute_phase (ss : Session) : (ss.permute).phase = ss.phase := rfl

@[simp] theorem Session.completeBlock_lanes (ss : Session) : (ss.completeBlock).lanes = keccakF ss.lanes := rfl
@[simp] theorem Session.completeBlock_offset (ss : Session) : (ss.completeBlock).offset = 0 := rfl
@[simp] theorem Session.completeBlock_rate (ss : Session) : (ss.completeBlock).rate = ss.rate := rfl
@[simp] theorem Session.completeBlock_delim (ss : Session) : (ss.completeBlock).delim = ss.delim := rfl
@[simp] theorem Session.completeBlock_untouched (ss : Session) : (ss.completeBlock).untouched = false := rfl
@[simp] theorem Session.completeBlock_phase (ss : Session) : (ss.completeBlock).phase = ss.phase := rfl

@[simp] theorem Session.fill_lanes (byte : Byte) (ss : Session) : (ss.fill byte).lanes = xorByteAt ss.lanes ss.offset.toNat byte := rfl
@[simp] theorem Session.fill_offset (byte : Byte) (ss : Session) : (ss.fill byte).offset = BitVec.ofNat 8 (ss.offset.toNat + 1) := rfl
@[simp] theorem Session.fill_rate (byte : Byte) (ss : Session) : (ss.fill byte).rate = ss.rate := rfl
@[simp] theorem Session.fill_delim (byte : Byte) (ss : Session) : (ss.fill byte).delim = ss.delim := rfl
@[simp] theorem Session.fill_untouched (byte : Byte) (ss : Session) : (ss.fill byte).untouched = ss.untouched := rfl
@[simp] theorem Session.fill_phase (byte : Byte) (ss : Session) : (ss.fill byte).phase = ss.phase := rfl

@[simp] theorem Session.xorByte_lanes (index value : Byte) (ss : Session) : (ss.xorByte index value).lanes = xorByteAt ss.lanes index.toNat value := rfl
@[simp] theorem Session.xorByte_offset (index value : Byte) (ss : Session) : (ss.xorByte index value).offset = ss.offset := rfl
@[simp] theorem Session.xorByte_rate (index value : Byte) (ss : Session) : (ss.xorByte index value).rate = ss.rate := rfl
@[simp] theorem Session.xorByte_delim (index value : Byte) (ss : Session) : (ss.xorByte index value).delim = ss.delim := rfl
@[simp] theorem Session.xorByte_untouched (index value : Byte) (ss : Session) : (ss.xorByte index value).untouched = false := rfl
@[simp] theorem Session.xorByte_phase (index value : Byte) (ss : Session) : (ss.xorByte index value).phase = ss.phase := rfl

@[simp] theorem Session.pad_lanes (ss : Session) : (ss.pad).lanes = xorByteAt (xorByteAt ss.lanes ss.offset.toNat ss.delim) (ss.rate.toNat - 1) 0x80 := rfl
@[simp] theorem Session.pad_offset (ss : Session) : (ss.pad).offset = ss.offset := rfl
@[simp] theorem Session.pad_rate (ss : Session) : (ss.pad).rate = ss.rate := rfl
@[simp] theorem Session.pad_delim (ss : Session) : (ss.pad).delim = ss.delim := rfl
@[simp] theorem Session.pad_untouched (ss : Session) : (ss.pad).untouched = ss.untouched := rfl
@[simp] theorem Session.pad_phase (ss : Session) : (ss.pad).phase = ss.phase := rfl

@[simp] theorem Session.finalize_lanes (ss : Session) : (ss.finalize).lanes = keccakF ss.pad.lanes := rfl
@[simp] theorem Session.finalize_offset (ss : Session) : (ss.finalize).offset = ss.offset := rfl
@[simp] theorem Session.finalize_rate (ss : Session) : (ss.finalize).rate = ss.rate := rfl
@[simp] theorem Session.finalize_delim (ss : Session) : (ss.finalize).delim = ss.delim := rfl
@[simp] theorem Session.finalize_untouched (ss : Session) : (ss.finalize).untouched = false := rfl
@[simp] theorem Session.finalize_phase (ss : Session) : (ss.finalize).phase = .finalized := rfl

@[simp] theorem newSession_lanes (rate delim : Byte) : (newSession rate delim).lanes = zeroLanes := rfl
@[simp] theorem newSession_offset (rate delim : Byte) : (newSession rate delim).offset = 0 := rfl
@[simp] theorem newSession_rate (rate delim : Byte) : (newSession rate delim).rate = rate := rfl
@[simp] theorem newSession_delim (rate delim : Byte) : (newSession rate delim).delim = delim := rfl
@[simp] theorem newSession_untouched (rate delim : Byte) : (newSession rate delim).untouched = true := rfl
@[simp] theorem newSession_phase (rate delim : Byte) : (newSession rate delim).phase = .absorbing := rfl

@[simp] theorem Session.absorbByte_rate (ss : Session) (b : Byte) : (ss.absorbByte b).rate = ss.rate := by
  unfold Session.absorbByte; split <;> rfl

@[simp] theorem Session.absorbByte_delim (ss : Session) (b : Byte) : (ss.absorbByte b).delim = ss.delim := by
  unfold Session.absorbByte; split <;> rfl

@[simp] theorem Session.absorbByte_phase (ss : Session) (b : Byte) : (ss.absorbByte b).phase = ss.phase := by
  unfold Session.absorbByte; split <;> rfl

end Sys2Proof.Machine
end

