-- ==== Sys2Proof/Laws/Ops.lean ====
section
/-! SUPPORT. What the shared frame of a command can do, said once (spec/60_exceptions.md R202 to R204): a command
is ignored, takes its effect, or enters the error its check raises. -/

namespace Sys2Proof.Machine

/-- While `ERR = 1` a command has no effect (R204). -/
theorem perform_of_err (body : Body) {s : State} (h : s.err = true) : perform body s = s := by
  simp [perform, h]

/-- A command whose check passes has its effect. -/
theorem perform_of_ok {body : Body} {s t : State} (h : s.err = false) (hb : body s = .ok t) :
    perform body s = t := by
  simp [perform, h, hb]

/-- A command whose check fails enters the error (R203). -/
theorem perform_of_error {body : Body} {s : State} {c : ErrorCause} (h : s.err = false)
    (hb : body s = .error c) : perform body s = raiseError c s := by
  simp [perform, h, hb]

/-- Everything a command can do. -/
theorem perform_cases (body : Body) (s : State) :
    (s.err = true ∧ perform body s = s) ∨
    (∃ t, s.err = false ∧ body s = .ok t ∧ perform body s = t) ∨
    (∃ c, s.err = false ∧ body s = .error c ∧ perform body s = raiseError c s) := by
  cases he : s.err with
  | true => exact .inl ⟨rfl, perform_of_err body he⟩
  | false =>
    cases hb : body s with
    | ok t => exact .inr (.inl ⟨t, rfl, rfl, perform_of_ok he hb⟩)
    | error c => exact .inr (.inr ⟨c, rfl, rfl, perform_of_error he hb⟩)

/-- The outcome of a command is the state `perform` gives. -/
theorem runCommand_eq (body : Body) (s : State) : runCommand body s = .next (perform body s) := rfl

/-- Two rotations of ROTL's definition agree with the library's rotation (R9). -/
theorem rotl_eq_rotateLeft (a : Lane) {n : Nat} (h : n < 64) : rotl a n = a.rotateLeft n := by
  unfold rotl
  split
  · next h0 => subst h0; ext i hi; simp [BitVec.getElem_rotateLeft]
  · rw [BitVec.rotateLeft_def, Nat.mod_eq_of_lt h]

/-- Every cause code is one of 1 to 6 (R201). -/
theorem causeCode_range (c : ErrorCause) : 1 ≤ (causeCode c).toNat ∧ (causeCode c).toNat ≤ 6 := by
  cases c <;> decide

/-- Distinct causes have distinct codes (R201). -/
theorem causeCode_injective {c d : ErrorCause} (h : causeCode c = causeCode d) : c = d := by
  revert h; cases c <;> cases d <;> decide

/-- The legal rates, as an inequality (R141). -/
theorem rateLegal_iff (rate : Byte) : rateLegal rate = true ↔ 32 ≤ rate.toNat ∧ rate.toNat ≤ 200 := by
  simp [rateLegal]

/-- The legal indices, as an inequality (R144). -/
theorem indexLegal_iff (index : Byte) : indexLegal index = true ↔ index.toNat < 200 := by
  simp [indexLegal]

end Sys2Proof.Machine
end

