-- ==== Sys2Proof/Laws/Commands.lean ====
section
/-! SUPPORT. One lemma per command body that says when it raises and what it leaves otherwise, and the body that
each command runs. -/

namespace Sys2Proof.Machine

/-- The body of each command. -/
def bodyOf : Instr → Body
  | .nop => nopBody
  | .init rate delim => initBody rate delim
  | .absorb byte => absorbBody byte
  | .xorb index value => xorbBody index value
  | .permute => permuteBody
  | .finalize => finalizeBody
  | .save => saveBody
  | .restore => restoreBody

/-- Every command runs in the shared frame. -/
theorem exec_eq (i : Instr) (s : State) : exec i s = .next (perform (bodyOf i) s) := by
  cases i <;> rfl

/-- A command whose check passes answers the state its effect leaves. -/
theorem exec_of_ok {i : Instr} {s t : State} (h : s.err = false) (hb : bodyOf i s = .ok t) :
    exec i s = .next t := by
  rw [exec_eq, perform_of_ok h hb]

/-- A command whose check fails answers the error entry (R203). -/
theorem exec_of_error {i : Instr} {s : State} {c : ErrorCause} (h : s.err = false)
    (hb : bodyOf i s = .error c) : exec i s = .next (raiseError c s) := by
  rw [exec_eq, perform_of_error h hb]

theorem bodyOf_init_legal {rate delim : Byte} (s : State) (h : rateLegal rate = true) :
    bodyOf (.init rate delim) s = .ok { s with session := newSession rate delim } := by
  simp [bodyOf, initBody, h]

theorem bodyOf_init_illegal {rate delim : Byte} (s : State) (h : rateLegal rate = false) :
    bodyOf (.init rate delim) s = .error .badRate := by
  simp [bodyOf, initBody, h]

theorem bodyOf_absorb_absorbing {byte : Byte} {s : State} (h : s.session.phase = .absorbing) :
    bodyOf (.absorb byte) s = .ok { s with session := s.session.absorbByte byte } := by
  simp [bodyOf, absorbBody, h]

theorem bodyOf_absorb_finalized {byte : Byte} {s : State} (h : s.session.phase = .finalized) :
    bodyOf (.absorb byte) s = .error .sessionFinalized := by
  simp [bodyOf, absorbBody, h]

theorem bodyOf_xorb_legal {index value : Byte} (s : State) (h : indexLegal index = true) :
    bodyOf (.xorb index value) s = .ok { s with session := s.session.xorByte index value } := by
  simp [bodyOf, xorbBody, h]

theorem bodyOf_xorb_illegal {index value : Byte} (s : State) (h : indexLegal index = false) :
    bodyOf (.xorb index value) s = .error .badIndex := by
  simp [bodyOf, xorbBody, h]

theorem bodyOf_finalize_absorbing {s : State} (h : s.session.phase = .absorbing) :
    bodyOf .finalize s =
      .ok { s with session := s.session.finalize, out := squeeze s.session.finalize.lanes } := by
  simp [bodyOf, finalizeBody, h]

theorem bodyOf_finalize_finalized {s : State} (h : s.session.phase = .finalized) :
    bodyOf .finalize s = .error .sessionFinalized := by
  simp [bodyOf, finalizeBody, h]

theorem bodyOf_restore_valid {s : State} (h : s.saveValid = true) :
    bodyOf .restore s = .ok { s with session := s.sv } := by
  simp [bodyOf, restoreBody, h]

theorem bodyOf_restore_invalid {s : State} (h : s.saveValid = false) :
    bodyOf .restore s = .error .noSavedContext := by
  simp [bodyOf, restoreBody, h]

/-- Everything a command's body can leave: which fields it may write. A body that succeeds touches no error
register and nothing of the host's; only `FINALIZE` writes `OUT`, only `SAVE` writes the slot. -/
theorem bodyOf_ok_frame {i : Instr} {s t : State} (h : bodyOf i s = .ok t) :
    t.err = s.err ∧ t.errCause = s.errCause ∧ t.transactions = s.transactions ∧ t.pc = s.pc ∧
      t.answers = s.answers ∧ (i ≠ .finalize → t.out = s.out) ∧
      (i ≠ .save → t.sv = s.sv ∧ t.saveValid = s.saveValid) := by
  cases i <;>
    simp only [bodyOf, nopBody, initBody, absorbBody, xorbBody, permuteBody, finalizeBody, saveBody,
      restoreBody] at h <;>
    (repeat' split at h) <;> first | (cases h; done) | (cases h; simp)

end Sys2Proof.Machine
end

