-- ==== Sys2Proof/Laws/Decode.lean ====
section
/-! SUPPORT. The fields of an encoded command, and what a decoded word can be. -/

namespace Sys2Proof

/-- Every command is well formed: its operands are 8-bit fields by type. -/
theorem Instr.wellFormed (i : Instr) : i.WellFormed := by
  cases i <;> simp [Instr.WellFormed, Instr.source, AsmCommand.wellFormed, AsmCommand.countOk,
    AsmCommand.rangeOk, Mnemonic.operandCount] <;> omega

@[simp] theorem opField_encode (i : Instr) : opField (encode i) = i.mnemonic.opcode := by
  unfold opField encode; ext n hn
  simp [hn, show n < 32 by omega, show n < 16 by omega]

@[simp] theorem aField_encode (i : Instr) : aField (encode i) = i.operandA := by
  unfold aField encode; ext n hn
  simp [hn, show 8 + n < 32 by omega, show 8 + n < 16 by omega]

@[simp] theorem bField_encode (i : Instr) : bField (encode i) = i.operandB := by
  unfold bField encode; ext n hn
  have h1 : i.mnemonic.opcode.getLsbD (16 + n) = false := BitVec.getLsbD_of_ge _ _ (by omega)
  have h2 : i.operandA.getLsbD (16 + n - 8) = false := BitVec.getLsbD_of_ge _ _ (by omega)
  simp [h1, h2, hn, show 16 + n < 32 by omega]

@[simp] theorem rsvField_encode (i : Instr) : rsvField (encode i) = 0 := by
  unfold rsvField encode; ext n hn
  have h1 : i.mnemonic.opcode.getLsbD (24 + n) = false := BitVec.getLsbD_of_ge _ _ (by omega)
  have h2 : i.operandA.getLsbD (24 + n - 8) = false := BitVec.getLsbD_of_ge _ _ (by omega)
  have h3 : i.operandB.getLsbD (24 + n - 16) = false := BitVec.getLsbD_of_ge _ _ (by omega)
  simp [h1, h2, h3]

/-- The bits of a word written as `{RSV, B, A, OP}` (R71). -/
theorem getLsbD_fields (op a b rsv : Byte) (n : Nat) :
    BitVec.getLsbD (w := 8 + 8 + 8 + 8) (rsv ++ b ++ a ++ op) n =
      if n < 8 then op.getLsbD n
      else if n - 8 < 8 then a.getLsbD (n - 8)
      else if n - 16 < 8 then b.getLsbD (n - 16) else rsv.getLsbD (n - 24) := by
  rw [BitVec.getLsbD_append, BitVec.getLsbD_append, BitVec.getLsbD_append, Nat.sub_sub, Nat.sub_sub]

/-- The fields of a word written as `{RSV, B, A, OP}` (R71). -/
theorem fields_append (op a b rsv : Byte) :
    opField (rsv ++ b ++ a ++ op) = op ∧ aField (rsv ++ b ++ a ++ op) = a ∧
      bField (rsv ++ b ++ a ++ op) = b ∧ rsvField (rsv ++ b ++ a ++ op) = rsv := by
  have field : ∀ (lo : Nat) (f : Byte),
      (∀ n < 8, BitVec.getLsbD (w := 8 + 8 + 8 + 8) (rsv ++ b ++ a ++ op) (lo + n) = f.getLsbD n) →
      BitVec.extractLsb' (n := 32) lo 8 (rsv ++ b ++ a ++ op) = f := fun lo f h => by
    apply BitVec.eq_of_getLsbD_eq
    intro n hn
    rw [BitVec.getLsbD_extractLsb', decide_eq_true hn, Bool.true_and]
    exact h n hn
  refine ⟨field 0 op ?_, field 8 a ?_, field 16 b ?_, field 24 rsv ?_⟩ <;> intro n hn <;>
    rw [getLsbD_fields]
  · simp [hn]
  · simp [hn, show ¬8 + n < 8 by omega]
  · simp [hn, show ¬16 + n < 8 by omega, show ¬16 + n - 8 < 8 by omega]
  · simp [show ¬24 + n < 8 by omega, show ¬24 + n - 8 < 8 by omega, show ¬24 + n - 16 < 8 by omega]

theorem noOperands_eq_command {a b : Byte} {i j : Instr} :
    noOperands a b i = .command j ↔ a = 0 ∧ b = 0 ∧ j = i := by
  unfold noOperands
  split
  · next h => exact ⟨(nomatch ·), fun ⟨ha, hb, _⟩ => absurd h (by simp [ha, hb])⟩
  · next h =>
    have h' : a = 0 ∧ b = 0 := by simpa [not_or] using h
    exact ⟨fun e => by cases e; exact ⟨h'.1, h'.2, rfl⟩, fun ⟨_, _, e⟩ => by rw [e]⟩

/-- What a word that decodes to a command holds: the command's fields and nothing else (R72, R76). -/
theorem fields_of_decode {w : CommandWord} {i : Instr} (h : decode w = .command i) :
    opField w = i.mnemonic.opcode ∧ aField w = i.operandA ∧ bField w = i.operandB ∧ rsvField w = 0 := by
  have byte : ∀ n : Nat, (opField w).toNat = n → opField w = BitVec.ofNat 8 n := fun n hn => by
    rw [← hn]; simp
  unfold decode at h
  split at h
  · cases h
  split at h
  · cases h
  · rename_i hr
    have hr : rsvField w = 0 := by simpa using hr
    split at h <;> rename_i heq <;>
      first
      | (obtain ⟨ha, hb, rfl⟩ := noOperands_eq_command.1 h
         exact ⟨byte _ heq, ha, hb, hr⟩)
      | (split at h
         · cases h
         · rename_i hb; cases h; exact ⟨byte _ heq, rfl, not_not.1 hb, hr⟩)
      | (cases h; exact ⟨byte _ heq, rfl, rfl, hr⟩)
      | cases h

/-- A word is its four fields (R71). -/
theorem word_ext {v w : CommandWord} (ho : opField v = opField w) (ha : aField v = aField w)
    (hb : bField v = bField w) (hr : rsvField v = rsvField w) : v = w := by
  apply BitVec.eq_of_getLsbD_eq
  intro n hn
  rcases (by omega : n < 8 ∨ (8 ≤ n ∧ n < 16) ∨ (16 ≤ n ∧ n < 24) ∨ (24 ≤ n ∧ n < 32)) with
    h | ⟨h, h'⟩ | ⟨h, h'⟩ | ⟨h, h'⟩
  · simpa [opField, h] using congrArg (fun f : Byte => f.getLsbD n) ho
  · simpa [aField, h, show n - 8 < 8 by omega, show 8 + (n - 8) = n by omega]
      using congrArg (fun f : Byte => f.getLsbD (n - 8)) ha
  · simpa [bField, h, show n - 16 < 8 by omega, show 16 + (n - 16) = n by omega]
      using congrArg (fun f : Byte => f.getLsbD (n - 16)) hb
  · simpa [rsvField, h, show n - 24 < 8 by omega, show 24 + (n - 24) = n by omega]
      using congrArg (fun f : Byte => f.getLsbD (n - 24)) hr

/-- A word is of a row exactly when each field is, under its part of the mask (R71, R73). -/
theorem OpcodeRow.holds_iff (row : OpcodeRow) (w : CommandWord) :
    row.holds w = true ↔
      opField w &&& opField row.mask = opField row.matchBits ∧
      aField w &&& aField row.mask = aField row.matchBits ∧
      bField w &&& bField row.mask = bField row.matchBits ∧
      rsvField w &&& rsvField row.mask = rsvField row.matchBits := by
  have e : ∀ lo : Nat, (w &&& row.mask).extractLsb' lo 8 = w.extractLsb' lo 8 &&& row.mask.extractLsb' lo 8 :=
    fun lo => by ext n hn; simp
  constructor
  · intro h
    have h' : w &&& row.mask = row.matchBits := by simpa [OpcodeRow.holds] using h
    simp only [opField, aField, bField, rsvField, ← e, h', and_self]
  · rintro ⟨ho, ha, hb, hr⟩
    have h' : w &&& row.mask = row.matchBits :=
      word_ext ((e 0).trans ho) ((e 8).trans ha) ((e 16).trans hb) ((e 24).trans hr)
    simp [OpcodeRow.holds, h']

end Sys2Proof
end

