-- ==== Sys2Proof/Laws/Lanes.lean ====
section
/-! SUPPORT. The lane file and its two views (spec/00_scope.md R11): reading after writing a byte, and equality of
lane files by lanes or by bytes. Later proofs cite these and unfold no access. -/

namespace Sys2Proof.Machine

theorem laneOf_eq_getElem (a : LaneFile) {L : Nat} (h : L < 25) : laneOf a L = a[L] := by
  simp [laneOf, h]

theorem laneAt_eq_laneOf (a : LaneFile) (x y : Fin 5) : laneAt a x y = laneOf a (x.val + 5 * y.val) := by
  have h : x.val + 5 * y.val < 25 := by omega
  rw [laneOf_eq_getElem a h, laneAt]

@[simp] theorem laneAt_ofGrid (g : Fin 5 → Fin 5 → Lane) (x y : Fin 5) : laneAt (ofGrid g) x y = g x y := by
  fin_cases x <;> fin_cases y <;> rfl

/-- Lane files are equal when their lanes are, by index. -/
theorem laneFile_ext {a b : LaneFile} (h : ∀ L < 25, laneOf a L = laneOf b L) : a = b := by
  apply Vector.ext
  intro L hL
  simpa [laneOf, hL] using h L hL

/-- Lane files are equal when their lanes are, by coordinates. -/
theorem laneFile_ext_grid {a b : LaneFile} (h : ∀ x y, laneAt a x y = laneAt b x y) : a = b := by
  apply laneFile_ext
  intro L hL
  have hxy := h ⟨L % 5, by omega⟩ ⟨L / 5, by omega⟩
  have e : L % 5 + 5 * (L / 5) = L := by omega
  simpa only [laneAt_eq_laneOf, e] using hxy

/-- The bits of a lane with one byte replaced. -/
theorem getLsbD_setLaneByte (v : Lane) (b : Byte) {k n : Nat} (hn : n < 64) :
    (setLaneByte v k b).getLsbD n = if n / 8 = k then b.getLsbD (n % 8) else v.getLsbD n := by
  have hff : ∀ m, (0xFF : Lane).getLsbD m = decide (m < 8) := by
    intro m
    by_cases h : m < 64
    · interval_cases m <;> rfl
    · rw [BitVec.getLsbD_of_ge _ _ (by omega)]; simp; omega
  simp only [setLaneByte, BitVec.getLsbD_or, BitVec.getLsbD_and, BitVec.getLsbD_not, BitVec.getLsbD_shiftLeft,
    BitVec.getLsbD_setWidth, hff, hn, decide_true, Bool.true_and]
  by_cases h : n / 8 = k
  · have e : n - 8 * k = n % 8 := by omega
    simp [h, e, show ¬n < 8 * k by omega, show n % 8 < 8 by omega, show n % 8 < 64 by omega]
  · by_cases hlt : n < 8 * k
    · simp [h, hlt]
    · simp [h, hlt, show ¬n - 8 * k < 8 by omega, BitVec.getLsbD_of_ge b (n - 8 * k) (by omega)]

/-- A written byte of a lane is read back, and the lane's other bytes are unchanged. -/
theorem extract_setLaneByte (v : Lane) (b : Byte) {j k : Nat} (hj : j < 8) :
    (setLaneByte v k b).extractLsb' (8 * j) 8 = if j = k then b else v.extractLsb' (8 * j) 8 := by
  apply BitVec.eq_of_getLsbD_eq
  intro n hn
  rw [BitVec.getLsbD_extractLsb', getLsbD_setLaneByte v b (by omega)]
  have e1 : (8 * j + n) / 8 = j := by omega
  have e2 : (8 * j + n) % 8 = n := by omega
  rw [e1, e2]
  by_cases h : j = k <;> simp [h, hn]

theorem laneOf_setByteAt (a : LaneFile) (i L : Nat) (b : Byte) :
    laneOf (setByteAt a i b) L =
      if i / 8 = L ∧ i / 8 < 25 then setLaneByte (laneOf a L) (i % 8) b else laneOf a L := by
  unfold setByteAt laneOf
  rw [Vector.getElem?_setIfInBounds]
  by_cases h : i / 8 = L
  · subst h
    by_cases h25 : i / 8 < 25
    · simp [h25]
    · simp [h25]
  · simp [h]

/-- Reading a byte after writing one (R11): the written byte reads back, every other is unchanged. -/
theorem byteAt_setByteAt (a : LaneFile) {i : Nat} (hi : i < 200) (j : Nat) (b : Byte) :
    byteAt (setByteAt a i b) j = if i = j then b else byteAt a j := by
  have h25 : i / 8 < 25 := by omega
  unfold byteAt
  rw [laneOf_setByteAt]
  by_cases hL : i / 8 = j / 8
  · rw [if_pos ⟨hL, h25⟩, extract_setLaneByte _ _ (Nat.mod_lt _ (by omega))]
    have : (j % 8 = i % 8) ↔ (i = j) := by omega
    simp only [this]
  · have hne : i ≠ j := fun h => hL (by rw [h])
    rw [if_neg (fun h => hL h.1), if_neg hne]

/-- A write beyond the buffer writes nothing. -/
theorem setByteAt_outside (a : LaneFile) {i : Nat} (hi : 200 ≤ i) (b : Byte) : setByteAt a i b = a := by
  apply laneFile_ext
  intro L _
  rw [laneOf_setByteAt, if_neg (fun h => by omega)]

/-- Reading a byte after XORing one. -/
theorem byteAt_xorByteAt (a : LaneFile) {i : Nat} (hi : i < 200) (j : Nat) (b : Byte) :
    byteAt (xorByteAt a i b) j = if i = j then byteAt a j ^^^ b else byteAt a j := by
  unfold xorByteAt
  rw [byteAt_setByteAt a hi]
  by_cases h : i = j
  · simp [h]
  · simp [h]

@[simp] theorem byteAt_zeroLanes (i : Nat) : byteAt zeroLanes i = 0 := by
  have h : laneOf zeroLanes (i / 8) = 0 := by
    unfold laneOf zeroLanes
    by_cases h : i / 8 < 25
    · simp [h]
    · simp [Nat.le_of_not_lt h]
  unfold byteAt
  rw [h]
  simp

/-- Lane files are equal when their bytes are (R11). -/
theorem laneFile_ext_bytes {a b : LaneFile} (h : ∀ i < 200, byteAt a i = byteAt b i) : a = b := by
  apply laneFile_ext
  intro L hL
  apply BitVec.eq_of_getLsbD_eq
  intro n hn
  have hb := congrArg (fun v : Byte => v.getLsbD (n % 8)) (h (8 * L + n / 8) (by omega))
  have e1 : (8 * L + n / 8) / 8 = L := by omega
  have e2 : (8 * L + n / 8) % 8 = n / 8 := by omega
  have e3 : 8 * (n / 8) + n % 8 = n := by omega
  have e4 : n % 8 < 8 := by omega
  simpa [byteAt, e1, e2, e3, e4] using hb

@[simp] theorem outAt_squeeze (a : LaneFile) {j : Nat} (h : j < 32) : outAt (squeeze a) j = byteAt a j := by
  simp [outAt, squeeze, h]

/-- Digests are equal when their bytes are. -/
theorem digest_ext {o p : Digest} (h : ∀ j < 32, outAt o j = outAt p j) : o = p := by
  apply Vector.ext
  intro j hj
  simpa [outAt, hj] using h j hj

end Sys2Proof.Machine
end

