-- ==== Sys2Proof/Laws/PerInstr.lean ====
section
/-! SUPPORT. Per-instruction families: one lemma per constructor of `Instr`.
RowMatch: a command is well formed, and its word is of its own row of the opcode map and of no other
(spec/30_encoding.md R73). -/

namespace Sys2Proof.Laws.RowMatch

/-- The word of `i` is of the row of its own mnemonic and of no other row. -/
def Statement (i : Instr) : Prop :=
  i.WellFormed ∧ ∀ row ∈ opcodeTable, (row.holds (encode i) = true ↔ row.mnemonic = i.mnemonic)

/-- The shared proof: an operand field that is 0 passes every mask, and a row that masks an operand out asks
nothing of it. -/
theorem of_operands (i : Instr) (ha : i.operandA = 0 ∨ i.mnemonic = .init ∨ i.mnemonic = .xorb ∨ i.mnemonic = .absorb)
    (hb : i.operandB = 0 ∨ i.mnemonic = .init ∨ i.mnemonic = .xorb) : Statement i := by
  refine ⟨i.wellFormed, ?_⟩
  intro row hrow
  rw [OpcodeRow.holds_iff, opField_encode, aField_encode, bField_encode, rsvField_encode]
  simp only [opcodeTable, List.mem_cons, List.not_mem_nil, or_false] at hrow
  rcases hrow with rfl | rfl | rfl | rfl | rfl | rfl | rfl | rfl <;>
    simp only [opField, aField, bField, rsvField, BitVec.reduceExtractLsb'] <;>
    revert ha hb <;> generalize i.operandA = a <;> generalize i.operandB = b <;> cases i.mnemonic <;>
    simp +contextual [Mnemonic.opcode]

theorem nop : Statement .nop := of_operands _ (by decide) (by decide)
theorem init (rate delim : Byte) : Statement (.init rate delim) :=
  of_operands _ (.inr (.inl rfl)) (.inr (.inl rfl))
theorem absorb (byte : Byte) : Statement (.absorb byte) :=
  of_operands _ (.inr (.inr (.inr rfl))) (.inl rfl)
theorem xorb (index value : Byte) : Statement (.xorb index value) :=
  of_operands _ (.inr (.inr (.inl rfl))) (.inr (.inr rfl))
theorem permute : Statement .permute := of_operands _ (by decide) (by decide)
theorem finalize : Statement .finalize := of_operands _ (by decide) (by decide)
theorem save : Statement .save := of_operands _ (by decide) (by decide)
theorem restore : Statement .restore := of_operands _ (by decide) (by decide)

end Sys2Proof.Laws.RowMatch
end

