-- ==== Sys2Proof/Laws/Runs.lean ====
section
/-! SUPPORT. The states of a run (Safety.lean) are the states that `Host.Core.run` reaches. -/

namespace Sys2Proof.Machine

/-- One more step at the front of a run. -/
theorem run_succ_of_step {s t : State} (h : step s = .next t) (k : Nat) : core.run (k + 1) s = core.run k t := by
  have hc : core.step s = .next t := h
  simp only [Host.Core.run, hc]

/-- The first step of a run that reaches a state. -/
theorem step_of_run_succ {s u : State} {k : Nat} (h : core.run (k + 1) s = .next u) :
    ∃ t, step s = .next t ∧ core.run k t = .next u := by
  cases hs : step s with
  | next t => exact ⟨t, rfl, by rwa [run_succ_of_step hs] at h⟩
  | fault r => exact nomatch r
  | refused r =>
    have hc : core.step s = .refused r := hs
    simp [Host.Core.run, hc] at h

theorem runStates_of_step {s t : State} (h : step s = .next t) (k : Nat) :
    runStates (k + 1) s = s :: runStates k t := by
  simp [runStates, h]

/-- The states of a run are exactly those that some number of its steps reaches. -/
theorem mem_runStates {k : Nat} {s u : State} :
    u ∈ runStates k s ↔ ∃ j ≤ k, core.run j s = .next u := by
  induction k generalizing s with
  | zero =>
    constructor
    · intro h
      exact ⟨0, le_rfl, by rw [List.mem_singleton.1 h]; rfl⟩
    · rintro ⟨j, hj, h⟩
      obtain rfl : j = 0 := by omega
      cases h
      exact List.mem_singleton_self _
  | succ k ih =>
    constructor
    · intro h
      cases hs : step s with
      | next t =>
        rw [runStates_of_step hs] at h
        rcases List.mem_cons.1 h with rfl | h
        · exact ⟨0, by omega, rfl⟩
        · obtain ⟨j, hj, hr⟩ := ih.1 h
          exact ⟨j + 1, by omega, by rw [run_succ_of_step hs, hr]⟩
      | fault r => exact nomatch r
      | refused r => exact ⟨0, by omega, by rw [show u = s by simpa [runStates, hs] using h]; rfl⟩
    · rintro ⟨j, hj, h⟩
      cases j with
      | zero =>
        obtain rfl : s = u := by cases h; rfl
        unfold runStates
        split <;> simp
      | succ j =>
        obtain ⟨t, hs, hr⟩ := step_of_run_succ h
        rw [runStates_of_step hs]
        exact List.mem_cons_of_mem _ (ih.2 ⟨j, by omega, hr⟩)

/-- The last state of a run's states is the one the run reaches. -/
theorem getLast?_runStates {k : Nat} {s u : State} (h : core.run k s = .next u) :
    (runStates k s).getLast? = some u := by
  induction k generalizing s with
  | zero => cases h; rfl
  | succ k ih =>
    obtain ⟨t, hs, hr⟩ := step_of_run_succ h
    rw [runStates_of_step hs, List.getLast?_cons, ih hr]
    rfl

end Sys2Proof.Machine
end

