-- ==== Sys2Proof/Laws/Step.lean ====
section
/-! SUPPORT. What one step can do, said once: the lemmas from which claims about steps follow. -/

namespace Sys2Proof.Machine

/-- The state an issued word leaves: the error entry's frame around the decoder's verdict and the command. -/
def issueBody (w : CommandWord) : Body :=
  match decode w with
  | .command i => bodyOf i
  | .illegal c => fun _ => .error c

/-- Issuing a word always answers a next state. -/
theorem issueCommand_eq (w : CommandWord) (s : State) :
    issueCommand w s = .next (perform (issueBody w) s) := by
  unfold issueCommand issueBody
  cases decode w with
  | command i => exact exec_eq i s
  | illegal c => rfl

/-- A word's body that succeeds touches no error register and nothing of the host's. -/
theorem issueBody_ok_frame {w : CommandWord} {s t : State} (h : issueBody w s = .ok t) :
    t.err = s.err ∧ t.errCause = s.errCause ∧ t.transactions = s.transactions ∧ t.pc = s.pc ∧
      t.answers = s.answers := by
  cases hd : decode w with
  | command i =>
    obtain ⟨h1, h2, h3, h4, h5, _⟩ := bodyOf_ok_frame (i := i) (by simpa [issueBody, hd] using h)
    exact ⟨h1, h2, h3, h4, h5⟩
  | illegal c => simp [issueBody, hd] at h

/-- Issuing a word changes nothing of the host's. -/
theorem perform_issueBody_host (w : CommandWord) (s : State) :
    (perform (issueBody w) s).transactions = s.transactions ∧ (perform (issueBody w) s).pc = s.pc ∧
      (perform (issueBody w) s).answers = s.answers := by
  rcases perform_cases (issueBody w) s with ⟨_, h⟩ | ⟨t, _, hb, h⟩ | ⟨c, _, _, h⟩
  · simp [h]
  · rw [h]; exact (issueBody_ok_frame hb).2.2
  · simp [h]

theorem step_command {s : State} {w : CommandWord} (h : nextTransaction s = some (.command w)) :
    step s = issueCommand w (advance s) := by
  simp [step, h, serve]

theorem step_read {s : State} {a : Byte} (h : nextTransaction s = some (.read a)) :
    step s = .next (answerRead a (advance s)) := by
  simp [step, h, serve]

theorem step_reset {s : State} (h : nextTransaction s = some .reset) :
    step s = .next (applyReset (advance s)) := by
  simp [step, h, serve]

theorem step_ended {s : State} (h : nextTransaction s = none) : step s = .next s := by
  simp [step, h]

/-- Everything a step can do. -/
theorem step_cases {s t : State} (h : step s = .next t) :
    (∃ w, nextTransaction s = some (.command w) ∧ t = perform (issueBody w) (advance s)) ∨
    (∃ a, nextTransaction s = some (.read a) ∧ t = answerRead a (advance s)) ∨
    (nextTransaction s = some .reset ∧ t = applyReset (advance s)) ∨
    (nextTransaction s = none ∧ t = s) := by
  cases hn : nextTransaction s with
  | none => rw [step_ended hn] at h; cases h; exact .inr (.inr (.inr ⟨rfl, rfl⟩))
  | some tr =>
    cases tr with
    | command w =>
      rw [step_command hn, issueCommand_eq] at h; cases h
      exact .inl ⟨w, rfl, rfl⟩
    | read a => rw [step_read hn] at h; cases h; exact .inr (.inl ⟨a, rfl, rfl⟩)
    | reset => rw [step_reset hn] at h; cases h; exact .inr (.inr (.inl ⟨rfl, rfl⟩))

/-- The transaction put at an index is the one found there. -/
theorem getElem?_putAt (t : Transaction) (n : Nat) (l : List Transaction) : (putAt t n l)[n]? = some t := by
  induction n generalizing l with
  | zero => cases l <;> rfl
  | succ n ih => cases l <;> simpa [putAt] using ih _

/-- The list's other transactions stay. -/
theorem getElem?_putAt_ne (t : Transaction) {n k : Nat} (l : List Transaction) (hk : k < l.length)
    (h : k ≠ n) : (putAt t n l)[k]? = l[k]? := by
  induction n generalizing l k with
  | zero =>
    cases l with
    | nil => simp at hk
    | cons u rest =>
      cases k with
      | zero => exact absurd rfl h
      | succ k => simp [putAt]
  | succ n ih =>
    cases l with
    | nil => simp at hk
    | cons u rest =>
      cases k with
      | zero => simp [putAt]
      | succ k =>
        have hr : k < rest.length := by simpa using hk
        simpa [putAt] using ih rest hr (fun e => h (by rw [e]))

end Sys2Proof.Machine
end

