-- ==== Sys2Proof/Machine/Assembler.lean ====
section
/-! DEFINITION. The assembly language: lines of text to commands (spec/30_encoding.md R78, R79). Where the rules
leave the lexing open, log entry 9 says what is taken. -/

namespace Sys2Proof.Machine

/-- White space inside a line (log entry 9). -/
def isBlank (c : Char) : Bool := c == ' ' || c == '\t' || c == '\r'

/-- Text without white space at either end. -/
def trimBlank (l : List Char) : List Char :=
  ((l.dropWhile isBlank).reverse.dropWhile isBlank).reverse

/-- `;` starts a comment to the end of the line (R78), except in a quoted text or as a character literal
(log entry 9). `quoted` says that a text's opening quote has been passed. -/
def stripComment (quoted : Bool) : List Char → List Char
  | [] => []
  | '\\' :: c :: rest =>
    if quoted then '\\' :: c :: stripComment true rest else '\\' :: stripComment false (c :: rest)
  | '\'' :: c :: '\'' :: rest =>
    if quoted then '\'' :: stripComment true (c :: '\'' :: rest)
    else '\'' :: c :: '\'' :: stripComment false rest
  | c :: rest =>
    if c == '"' then c :: stripComment (!quoted) rest
    else if c == ';' && !quoted then []
    else c :: stripComment quoted rest

/-- The value of a decimal digit. -/
def decimalDigit (c : Char) : Option Nat :=
  if '0'.toNat ≤ c.toNat ∧ c.toNat ≤ '9'.toNat then some (c.toNat - '0'.toNat) else none

/-- The value of a hexadecimal digit, in either case. -/
def hexDigit (c : Char) : Option Nat :=
  if 'a'.toNat ≤ c.toNat ∧ c.toNat ≤ 'f'.toNat then some (c.toNat - 'a'.toNat + 10)
  else if 'A'.toNat ≤ c.toNat ∧ c.toNat ≤ 'F'.toNat then some (c.toNat - 'A'.toNat + 10)
  else decimalDigit c

/-- The digits of a number continued from `acc`; none where a character is no digit of the base. -/
def digitsFrom (base : Nat) (digit : Char → Option Nat) : Nat → List Char → Option Nat
  | acc, [] => some acc
  | acc, c :: rest => do
    let d ← digit c
    digitsFrom base digit (acc * base + d) rest

/-- A numeric operand: decimal, `0x` hexadecimal, or a character literal (R78). -/
def parseNumber (l : List Char) : Option Nat :=
  match l with
  | [] => none
  | ['\'', c, '\''] => if c.toNat < 128 then some c.toNat else none
  | ['0', 'x'] => none
  | '0' :: 'x' :: digits => digitsFrom 16 hexDigit 0 digits
  | digits => digitsFrom 10 decimalDigit 0 digits

/-- The parts of an operand list between commas; a character literal is taken whole, so that a comma in one is no
separator and one between two literals is (R78). -/
def splitCommas : List Char → List (List Char)
  | [] => [[]]
  | '\'' :: c :: '\'' :: rest =>
    match splitCommas rest with
    | [] => [['\'', c, '\'']]
    | part :: parts => ('\'' :: c :: '\'' :: part) :: parts
  | c :: rest =>
    if c == ',' then [] :: splitCommas rest
    else
      match splitCommas rest with
      | [] => [[c]]
      | part :: parts => (c :: part) :: parts

/-- Every operand of an operand list (R78); the empty text is the empty list. -/
def parseOperands (l : List Char) : Option (List Nat) :=
  match trimBlank l with
  | [] => some []
  | text => (splitCommas text).mapM fun part => parseNumber (trimBlank part)

/-- The mnemonic of a command's name, in upper case (R73, R78). -/
def parseMnemonic (name : List Char) : Option Mnemonic :=
  if name = "NOP".toList then some .nop
  else if name = "INIT".toList then some .init
  else if name = "ABSORB".toList then some .absorb
  else if name = "XORB".toList then some .xorb
  else if name = "PERMUTE".toList then some .permute
  else if name = "FINALIZE".toList then some .finalize
  else if name = "SAVE".toList then some .save
  else if name = "RESTORE".toList then some .restore
  else none

/-- The bytes `HH..HH` after `hex:`, an even number of digits (R79). -/
def parseHexBytes : List Char → Option (List Byte)
  | [] => some []
  | [_] => none
  | h :: l :: rest => do
    let high ← hexDigit h
    let low ← hexDigit l
    let bytes ← parseHexBytes rest
    pure (BitVec.ofNat 8 (16 * high + low) :: bytes)

/-- The bytes of a quoted text after its opening quote, with the escapes of R79, up to the closing quote that
ends the line. -/
def parseTextBytes : List Char → Option (List Byte)
  | [] => none
  | ['"'] => some []
  | '\\' :: 'x' :: h :: l :: rest => do
    let high ← hexDigit h
    let low ← hexDigit l
    let bytes ← parseTextBytes rest
    pure (BitVec.ofNat 8 (16 * high + low) :: bytes)
  | '\\' :: c :: rest =>
    if c == '"' || c == '\\' then do
      let bytes ← parseTextBytes rest
      pure (BitVec.ofNat 8 c.toNat :: bytes)
    else none
  | c :: rest =>
    if c == '"' || c == '\\' || 128 ≤ c.toNat then none
    else do
      let bytes ← parseTextBytes rest
      pure (BitVec.ofNat 8 c.toNat :: bytes)

/-- The message of `UPDATE` or `KECCAK256`: a quoted text or `hex:` digits (R79). -/
def parseMessage (l : List Char) : Option (List Byte) :=
  match l with
  | '"' :: text => parseTextBytes text
  | 'h' :: 'e' :: 'x' :: ':' :: digits => parseHexBytes digits
  | _ => none

/-- `XORLANE` on its three numbers: coordinates 0 to 4 and a 64-bit value (R79). -/
def assembleXorLane (operands : List Nat) : Option (List Instr) :=
  match operands with
  | [x, y, v] =>
    if h : x < 5 ∧ y < 5 then
      if v < 2 ^ 64 then some (xorLaneCommands ⟨x, h.1⟩ ⟨y, h.2⟩ (BitVec.ofNat 64 v)) else none
    else none
  | _ => none

/-- A name and its operand text to commands: a pseudo-instruction's expansion (R79) or one command that passes
the assembler's checks (R78). -/
def assembleParts (name operands : List Char) : Option (List Instr) :=
  if name = "UPDATE".toList then (parseMessage operands).map updateCommands
  else if name = "KECCAK256".toList then (parseMessage operands).map keccak256Commands
  else if name = "XORLANE".toList then (parseOperands operands).bind assembleXorLane
  else do
    let mnemonic ← parseMnemonic name
    let numbers ← parseOperands operands
    let i ← AsmCommand.toInstr ⟨mnemonic, numbers⟩
    pure [i]

/-- One line of assembly (R78): the commands it stands for; none where the assembler refuses it. A blank line
stands for no command. -/
def assembleLine (line : List Char) : Option (List Instr) :=
  match trimBlank (stripComment false line) with
  | [] => some []
  | text =>
    assembleParts ((text.takeWhile fun c => !isBlank c).map Char.toUpper)
      (trimBlank (text.dropWhile fun c => !isBlank c))

/-- The lines of a text. -/
def linesOf : List Char → List (List Char)
  | [] => [[]]
  | c :: rest =>
    if c == '\n' then [] :: linesOf rest
    else
      match linesOf rest with
      | [] => [[c]]
      | line :: lines => (c :: line) :: lines

/-- A whole assembly text to the host's transactions, one command word each (R53, R78, R80). -/
def assemble (text : List Char) : Option (List Transaction) := do
  let commands ← (linesOf text).mapM assembleLine
  pure (commands.flatten.map fun i => .command (encode i))

end Sys2Proof.Machine
end

