-- ==== Sys2Proof/Tests/Slice0.lean ====
section
/-! SUPPORT. Tests of the model and, for every statement with hypotheses, a witness that meets them. Expected values are
those of spec/95_test_vectors.md (the V- names) and of the encodings of spec/30_encoding.md; none is the model's own
answer. -/

set_option maxRecDepth 100000

namespace Sys2Proof.Tests

open Sys2Proof Sys2Proof.Machine

/-! ### Well-formedness: one ill-formed term for each check (R78) -/

theorem test_wellFormed_refuses_count : AsmCommand.wellFormed ⟨.absorb, [1, 2]⟩ = false := by decide
theorem test_wellFormed_refuses_missing_operand : AsmCommand.toInstr ⟨.init, [136]⟩ = none := by decide
theorem test_wellFormed_refuses_range : AsmCommand.wellFormed ⟨.absorb, [256]⟩ = false := by decide
theorem test_wellFormed_takes_the_largest_byte : AsmCommand.toInstr ⟨.absorb, [255]⟩ = some (.absorb 0xFF) := by decide

/-! ### Decoding: the patterns of R73, field by field from bit 31 down -/

theorem test_decode_nop :
    decode (0b00000000#8 ++ 0b00000000#8 ++ 0b00000000#8 ++ 0b00000000#8) = .command .nop := by decide
theorem test_decode_init :
    decode (0b00000000#8 ++ 0b00011111#8 ++ 0b10101000#8 ++ 0b00000001#8) = .command (.init 168 0x1F) := by decide
theorem test_decode_absorb :
    decode (0b00000000#8 ++ 0b00000000#8 ++ 0b01100001#8 ++ 0b00000010#8) = .command (.absorb 0x61) := by decide
theorem test_decode_xorb :
    decode (0b00000000#8 ++ 0b11111111#8 ++ 0b11000111#8 ++ 0b00000011#8) = .command (.xorb 199 0xFF) := by decide
theorem test_decode_permute :
    decode (0b00000000#8 ++ 0b00000000#8 ++ 0b00000000#8 ++ 0b00000100#8) = .command .permute := by decide
theorem test_decode_finalize :
    decode (0b00000000#8 ++ 0b00000000#8 ++ 0b00000000#8 ++ 0b00000101#8) = .command .finalize := by decide
theorem test_decode_save :
    decode (0b00000000#8 ++ 0b00000000#8 ++ 0b00000000#8 ++ 0b00000110#8) = .command .save := by decide
theorem test_decode_restore :
    decode (0b00000000#8 ++ 0b00000000#8 ++ 0b00000000#8 ++ 0b00000111#8) = .command .restore := by decide

/-- V-E1, V-E2, V-E6. -/
theorem test_decode_illegal :
    [0x00000008, 0x000000FF, 0x01000009].map decode = List.replicate 3 (.illegal .illegalOpcode) := by decide
/-- V-E3 to V-E5, V-E7, V-E13, V-E16 to V-E18. -/
theorem test_decode_reserved :
    [0x01000000, 0x00000100, 0x00010000, 0x0100C801, 0x00010002, 0x00000104, 0x00010005, 0x00000106].map decode
      = List.replicate 8 (.illegal .reservedNonzero) := by decide
/-- R80. -/
theorem test_decodeTableWord : decodeTableWord 32 0x00068801 = some (.init 136 0x06) := by decide
theorem test_decodeTableWord_refuses : decodeTableWord 32 0x01001F01 = none := by decide

/-! ### Assembly text (R78, R79) -/

/-- R80; a comment is no operand. -/
theorem test_assemble_init : assembleLine "INIT 168, 0x1f ; rate".toList = some [.init 168 0x1F] := by decide +kernel
/-- R78: a character literal, and lower case. -/
theorem test_assemble_absorb : assembleLine "absorb 'a'".toList = some [.absorb 0x61] := by decide +kernel
/-- R78: a comma between two character literals separates them, and a comma as a literal does not. -/
theorem test_assemble_literals : assembleLine "XORB 'a','b'".toList = some [.xorb 0x61 0x62] ∧
    assembleLine "XORB ',',','".toList = some [.xorb 0x2C 0x2C] := by decide +kernel
/-- R78: an operand above 255 is refused. -/
theorem test_assemble_refuses : assembleLine "ABSORB 256".toList = none := by decide +kernel
/-- R79: the escapes of a text. -/
theorem test_assemble_update : assembleLine "UPDATE \"a\\\"\\\\\\xFf\"".toList =
    some [.absorb 0x61, .absorb 0x22, .absorb 0x5C, .absorb 0xFF] := by decide +kernel
/-- R79. -/
theorem test_assemble_keccak256 : assembleLine "KECCAK256 hex:00ab".toList =
    some [.init 136 0x01, .absorb 0x00, .absorb 0xAB, .finalize] := by decide +kernel
/-- V-X6. -/
theorem test_assemble_xorLane : assemble "XORLANE 3, 2, 0x0123456789ABCDEF".toList =
    some ([0x00EF6803, 0x00CD6903, 0x00AB6A03, 0x00896B03, 0x00676C03, 0x00456D03, 0x00236E03, 0x00016F03].map
      .command) := by decide +kernel

/-! ### The permutation's steps (spec/95_test_vectors.md, section 2) -/

/-- The lane file with the given lanes, lane index 0 first; the others are 0. -/
def lanes (l : List Lane) : LaneFile := Vector.ofFn fun L => l.getD L.val 0

/-- V-P5. -/
theorem test_theta : theta (lanes [1]) =
    lanes [1, 1, 0, 0, 2, 0, 1, 0, 0, 2, 0, 1, 0, 0, 2, 0, 1, 0, 0, 2, 0, 1, 0, 0, 2] := by decide +kernel
/-- V-P7. -/
theorem test_rho : rho (lanes (List.replicate 25 1)) =
    lanes [0x0000000000000001, 0x0000000000000002, 0x4000000000000000, 0x0000000010000000, 0x0000000008000000,
      0x0000001000000000, 0x0000100000000000, 0x0000000000000040, 0x0080000000000000, 0x0000000000100000,
      0x0000000000000008, 0x0000000000000400, 0x0000080000000000, 0x0000000002000000, 0x0000008000000000,
      0x0000020000000000, 0x0000200000000000, 0x0000000000008000, 0x0000000000200000, 0x0000000000000100,
      0x0000000000040000, 0x0000000000000004, 0x2000000000000000, 0x0100000000000000, 0x0000000000004000] := by
  decide +kernel
/-- V-P8. -/
theorem test_pi : piStep (lanes ((List.range 25).map (BitVec.ofNat 64))) =
    lanes [0, 6, 0xC, 0x12, 0x18, 3, 9, 0xA, 0x10, 0x16, 1, 7, 0xD, 0x13, 0x14, 4, 5, 0xB, 0x11, 0x17,
      2, 8, 0xE, 0xF, 0x15] := by decide +kernel
/-- V-P10, the mixed row. -/
theorem test_chi :
    chi (lanes [0x0123456789ABCDEF, 0xFEDCBA9876543210, 0x00FF00FF00FF00FF, 0x0F0F0F0F0F0F0F0F, 0x3333333333333333]) =
    lanes [0x010045008900CD00, 0xF1DCB59879543D10, 0x30CF30CF30CF30CF, 0x0F0F4B4B8787C3C3, 0xCDEF89AB45670123] := by
  decide +kernel
/-- V-P13. -/
theorem test_iota : iota 23 zeroLanes = lanes [0x8000000080008008] := by decide +kernel
/-- V-P11. -/
theorem test_two_rounds :
    keccakRound (keccakRound zeroLanes 0) 1 =
    lanes [0x8083, 0x0000100000000000, 0x8000, 1, 0x0000100000008000,
      0, 0x0000200000200000, 0, 0x0000200000000000, 0x0000000000200000,
      2, 0x200, 0, 0x202, 0,
      0x0000000010000400, 0, 0x400, 0x0000000010000000, 0,
      0x0000010000000000, 0, 0x0000010000000004, 0, 4] := by decide +kernel
/-- V-P11, by the loop form. -/
theorem test_two_loop_rounds :
    loopRound (loopRound zeroLanes 0) 1 =
    lanes [0x8083, 0x0000100000000000, 0x8000, 1, 0x0000100000008000,
      0, 0x0000200000200000, 0, 0x0000200000000000, 0x0000000000200000,
      2, 0x200, 0, 0x202, 0,
      0x0000000010000400, 0, 0x400, 0x0000000010000000, 0,
      0x0000010000000000, 0, 0x0000010000000004, 0, 4] := by decide +kernel

/-! ### One step on a small state -/

/-- The next state of an outcome. -/
def nextOf : Host.Outcome State Fault Refusal → Option State
  | .next t => some t
  | _ => none

/-- The state after one step that fetches the word `w`. -/
def after (w : Nat) (s : State) : Option State := nextOf (step (s.withFetchWord 32 w))

/-- The window's registers: `OFFSET`, `RATE`, `DELIM`, STATUS, `ERR_CAUSE`. -/
def regs (s : State) : List Byte := [0xC8, 0xC9, 0xCA, 0xCB, 0xCC].map (readByte s)

/-- The reset state with another session. -/
def withSession (ss : Session) : State := { State.reset with session := ss }

/-- A session of the given rate, offset and phase whose byte 0 is 0x61, not untouched. -/
def sample (rate offset : Byte) (phase : Phase) : State :=
  withSession { lanes := lanes [0x61], offset := offset, rate := rate, delim := 0x06, untouched := false, phase := phase }

/-- The same with a valid checkpoint: the session that `INIT 168, 0x1F` creates. -/
def sampleSaved (rate offset : Byte) (phase : Phase) : State :=
  { sample rate offset phase with saveValid := true, sv := newSession 168 0x1F }

/-- A faulted state. -/
def sampleFaulted : State := { sample 136 1 .absorbing with err := true, errCause := 0x01 }

/-- V-C1. -/
theorem test_nop : (after 0x00000000 .reset).map regs = some [0, 136, 0x01, 0x00, 0x00] := by decide +kernel
/-- V-E5: another word of that opcode is an error. -/
theorem test_nop_reserved : (after 0x00010000 .reset).map regs = some [0, 136, 0x01, 0x02, 0x02] := by decide +kernel
/-- V-I3, from a session in use: the bytes are cleared and the slot stays (V-I7). -/
theorem test_init : (after 0x0001C801 (sampleSaved 136 1 .finalized)).map
    (fun t => (regs t, readByte t 0x00, t.saveValid)) = some ([0, 200, 0x01, 0x04, 0x00], 0x00, true) := by decide +kernel
/-- V-I4. -/
theorem test_init_bad_rate : (after 0x00011F01 .reset).map regs = some [0, 136, 0x01, 0x02, 0x03] := by decide +kernel
/-- V-A2, its second command. -/
theorem test_absorb : (after 0x00006102 (sample 136 1 .absorbing)).map
    (fun t => (regs t, readByte t 0x00, readByte t 0x01)) = some ([2, 136, 0x06, 0x00, 0x00], 0x61, 0x61) := by
  decide +kernel
/-- V-X1 and V-X3: byte 199, `OFFSET` kept. -/
theorem test_xorb : (after 0x00FFC703 (sample 136 1 .finalized)).map
    (fun t => (regs t, laneAt t.session.lanes 4 4)) = some ([1, 136, 0x06, 0x01, 0x00], 0xFF00000000000000) := by
  decide +kernel
/-- V-X4. -/
theorem test_xorb_bad_index : (after 0x0001C803 .reset).map regs = some [0, 136, 0x01, 0x02, 0x04] := by decide +kernel
/-- V-P1 and V-P14. -/
theorem test_permute : (after 0x00000004 .reset).map (fun t => (regs t, t.session.lanes)) =
    some ([0, 136, 0x01, 0x00, 0x00],
      lanes [0xF1258F7940E1DDE7, 0x84D5CCF933C0478A, 0xD598261EA65AA9EE, 0xBD1547306F80494D, 0x8B284E056253D057,
        0xFF97A42D7F8E6FD4, 0x90FEE5A0A44647C4, 0x8C5BDA0CD6192E76, 0xAD30A6F71B19059C, 0x30935AB7D08FFC64,
        0xEB5AA93F2317D635, 0xA9A6E6260D712103, 0x81A57C16DBCF555F, 0x43B831CD0347C826, 0x01F22F1A11A5569F,
        0x05E5635A21D9AE61, 0x64BEFEF28CC970F2, 0x613670957BC46611, 0xB87C5A554FD00ECB, 0x8C3EE88A1CCF32C8,
        0x940C7922AE3A2614, 0x1841F924A2C509E4, 0x16F53526E70465C2, 0x75F644E97F30A13B, 0xEAF1FF7B5CECA249]) := by
  decide +kernel
/-- V-F1: `OUT` is V-S1 and the session is FINALIZED. -/
theorem test_finalize : (after 0x00000005 .reset).map (fun t => (regs t, t.out.toList)) =
    some ([0, 136, 0x01, 0x01, 0x00],
      [0xC5, 0xD2, 0x46, 0x01, 0x86, 0xF7, 0x23, 0x3C, 0x92, 0x7E, 0x7D, 0xB2, 0xDC, 0xC7, 0x03, 0xC0,
       0xE5, 0x00, 0xB6, 0x53, 0xCA, 0x82, 0x27, 0x3B, 0x7B, 0xFA, 0xD8, 0x04, 0x5D, 0x85, 0xA4, 0x70]) := by
  decide +kernel
/-- V-A4's last command: byte 0x87 at offset 135 of the bytes 0x00 to 0x86 completes the block. -/
theorem test_absorb_completes_the_block :
    (after 0x00008702 (withSession { newSession 136 0x01 with
        lanes := (List.range 135).foldl (fun a i => setByteAt a i (BitVec.ofNat 8 i)) zeroLanes, offset := 135 })).map
      (fun t => (regs t, [0, 1, 2, 3, 4, 5, 6, 7].map (readByte t), t.session.untouched)) =
    some ([0, 136, 0x01, 0x00, 0x00], [0x28, 0x2F, 0x36, 0xD2, 0x34, 0x43, 0x83, 0xC9], false) := by decide +kernel
/-- V-S40: both padding XORs fall on byte 135 and cancel. -/
theorem test_pad_cancels : byteAt (Session.pad { newSession 136 0x80 with offset := 135 }).lanes 135 = 0x00 := by
  decide +kernel
/-- V-C2. -/
theorem test_save : (after 0x00000006 (sample 136 1 .absorbing)).map
    (fun t => (regs t, byteAt t.sv.lanes 0, t.sv.offset, t.sv.phase)) =
    some ([1, 136, 0x06, 0x04, 0x00], 0x61, 1, .absorbing) := by decide +kernel
/-- V-C5: the rate, the delimiter and the phase of the checkpoint come back, and the slot stays. -/
theorem test_restore : (after 0x00000007 (sampleSaved 136 1 .finalized)).map (fun t => (regs t, readByte t 0x00)) =
    some ([0, 168, 0x1F, 0x04, 0x00], 0x00) := by decide +kernel
/-- V-C3. -/
theorem test_restore_no_context : (after 0x00000007 .reset).map regs = some [0, 136, 0x01, 0x02, 0x06] := by
  decide +kernel
/-- V-E22 and V-E23: a command after an error is ignored, and the cause stays. -/
theorem test_error_is_sticky : (after 0x00018801 sampleFaulted).map regs = some [1, 136, 0x06, 0x02, 0x01] := by
  decide +kernel
/-- V-E23: only reset clears the error. -/
theorem test_reset_clears_error : (nextOf (step { sampleFaulted with transactions := [.reset] })).map regs =
    some [0, 136, 0x01, 0x00, 0x00] := by decide +kernel
/-- The window vectors of section 6 at reserved addresses and at the command port. -/
theorem test_window_reserved : [0xCD, 0xCF, 0xF0, 0xF3, 0xF4, 0xFF].map
    (readByte { sampleFaulted with out := Vector.replicate 32 0xAA }) = List.replicate 6 0x00 := by decide +kernel
/-- The window vectors of section 6 at both ends of `OUT`. -/
theorem test_window_out : [0xD0, 0xEF].map
    (readByte { State.reset with out := (Vector.replicate 32 0).set 0 0x58 |>.set 31 0xC8 }) = [0x58, 0xC8] := by
  decide +kernel

/-! ### Witnesses: hypotheses of the statements that states and operands meet

One theorem for each statement with hypotheses, with a part for each clause, at the boundary values of its ranges. -/

/-- The state `s` with `l` as the host's list, at its first transaction. -/
def hosting (l : List Transaction) (s : State) : State := { s with transactions := l, pc := 0, answers := [] }

theorem witness_DecodeAndEncodeAreInverse : decode 0x00FFC703 = .command (.xorb 199 0xFF) := by decide
theorem witness_OpcodeMapRowsAreTheCommands :
    (∀ row ∈ opcodeTable, row.matchBits &&& row.mask = row.matchBits) ∧
    decode 0x00FFFF03 = .command (.xorb 0xFF 0xFF) ∧
    0x08 ≤ ((0x00000008 : CommandWord).extractLsb' 0 8).toNat ∧
    0x08 ≤ ((0xFFFFFFFF : CommandWord).extractLsb' 0 8).toNat := by decide
theorem witness_IllegalOpcodeRaises :
    0x08 ≤ ((0x00000008 : CommandWord).extractLsb' 0 8).toNat ∧ State.reset.err = false := by decide
theorem witness_ReservedNonzeroRaises :
    (((0x01000000 : CommandWord).extractLsb' 0 8).toNat < 0x08 ∧
      ∀ row ∈ opcodeTable, 0x01000000 &&& row.mask ≠ row.matchBits) ∧
    (((0x00000107 : CommandWord).extractLsb' 0 8).toNat < 0x08 ∧
      ∀ row ∈ opcodeTable, 0x00000107 &&& row.mask ≠ row.matchBits) ∧
    State.reset.err = false := by decide
theorem witness_StepRunsTheDecodedCommand :
    let s := hosting [.command 0x00006102] .reset
    s.transactions[s.pc]? = some (.command 0x00006102) ∧ decode 0x00006102 = .command (.absorb 0x61) := by decide
theorem witness_StepServesIllegalWordsReadsAndTheEnd :
    (∀ s ∈ [State.reset, sampleFaulted], (hosting [.command 0x00000108] s).transactions[0]? = some (.command 0x00000108)) ∧
    decode 0x00000108 = .illegal .illegalOpcode ∧ decode 0x00000104 = .illegal .reservedNonzero ∧
    (hosting [.read 0xFF] sampleFaulted).transactions[0]? = some (.read 0xFF) ∧
    State.reset.transactions[State.reset.pc]? = none := by decide +kernel
theorem witness_StepKeepsTheHostsList :
    (∃ t, step (hosting [.read 0x00] .reset) = .next t ∧ t.answers = [0x00]) ∧ (∃ t, step State.reset = .next t) :=
  ⟨⟨_, rfl, by decide +kernel⟩, ⟨_, rfl⟩⟩
theorem witness_FetchWordIsTheNextCommand :
    let s := { hosting [.reset, .read 0x00] .reset with pc := 1 }
    0 < s.transactions.length ∧ 0 ≠ s.pc := by decide
theorem witness_NopChangesNothing :
    ((0xFF000000 : CommandWord).extractLsb' 0 8 = 0x00 ∧ (0xFF000000 : CommandWord) ≠ 0x00000000) ∧
    ((0x00000100 : CommandWord).extractLsb' 0 8 = 0x00 ∧ (0x00000100 : CommandWord) ≠ 0x00000000) := by decide
theorem witness_InitStartsANewSession :
    (sample 136 1 .finalized).err = false ∧
    (∀ rate ∈ ([32, 200] : List Byte), 32 ≤ rate.toNat ∧ rate.toNat ≤ 200) ∧
    (∀ rate ∈ ([0, 31, 201, 255] : List Byte), rate.toNat < 32 ∨ 200 < rate.toNat) := by decide +kernel
theorem witness_AbsorbXorsAtOffset :
    (∀ s ∈ [sample 32 0 .absorbing, sample 32 31 .absorbing, sample 200 198 .absorbing, sample 200 199 .absorbing],
      s.err = false ∧ s.session.phase = .absorbing ∧ s.session.offset.toNat < s.session.rate.toNat ∧
      s.session.rate.toNat ≤ 200) ∧
    (sample 136 1 .finalized).err = false ∧ (sample 136 1 .finalized).session.phase = .finalized := by decide +kernel
theorem witness_XorbXorsOneByte :
    (∀ s ∈ [sample 136 1 .absorbing, sample 136 1 .finalized], s.err = false) ∧
    (∀ index ∈ ([0, 199] : List Byte), index.toNat < 200) ∧ (∀ index ∈ ([200, 255] : List Byte), 200 ≤ index.toNat) := by
  decide +kernel
theorem witness_PermuteAppliesF :
    ((0x00000104 : CommandWord).extractLsb' 0 8 = 0x04 ∧ (0x00000104 : CommandWord) ≠ 0x00000004) ∧
    (sample 136 1 .finalized).err = false := by decide +kernel
theorem witness_FinalizePadsPermutesSqueezes :
    (∀ s ∈ [sample 32 0 .absorbing, sample 32 31 .absorbing, sample 200 199 .absorbing],
      s.err = false ∧ s.session.phase = .absorbing ∧ s.session.offset.toNat < s.session.rate.toNat ∧
      32 ≤ s.session.rate.toNat ∧ s.session.rate.toNat ≤ 200) ∧
    (sample 136 1 .finalized).err = false ∧ (sample 136 1 .finalized).session.phase = .finalized := by decide +kernel
theorem witness_SaveCopiesTheSession :
    (sample 136 1 .absorbing).err = false ∧ (sampleSaved 136 1 .finalized).err = false := by decide +kernel
theorem witness_RestoreCopiesTheSlotBack :
    ((sampleSaved 136 1 .finalized).err = false ∧ (sampleSaved 136 1 .finalized).saveValid = true) ∧
    ((sample 136 1 .absorbing).err = false ∧ (sample 136 1 .absorbing).saveValid = false) := by decide +kernel

theorem witness_ResetSessionIsInit136 : (sampleSaved 200 199 .finalized).err = false := by decide +kernel
theorem witness_Keccak256IsReadyAtReset : (sample 32 31 .finalized).err = false := by decide +kernel
theorem witness_XorLaneXorsOneLane : (sample 136 1 .finalized).err = false := by decide +kernel
theorem witness_ErrorIsStickyUntilReset :
    sampleFaulted.err = true ∧
    (hosting [.read 0xCC] sampleFaulted).transactions[0]? = some (.read 0xCC) ∧
    (∃ t, step (hosting [.command 0x00018801] sampleFaulted) = .next t ∧
      (hosting [.command 0x00018801] sampleFaulted).transactions[0]? ≠ some .reset) ∧
    (∃ t, step (hosting [.reset] sampleFaulted) = .next t ∧
      (hosting [.reset] sampleFaulted).transactions[0]? = some .reset) :=
  ⟨by decide +kernel, by decide +kernel, ⟨_, rfl, by decide +kernel⟩, ⟨_, rfl, by decide +kernel⟩⟩
theorem witness_ErrorEntryIsPrecise :
    (sample 136 1 .finalized).err = false ∧
    ∃ t, issueCommand 0x00000005 (sample 136 1 .finalized) = .next t ∧ t.err = true :=
  ⟨by decide +kernel, _, rfl, by decide +kernel⟩
/-- Words whose field values stand where two clauses meet; the cause that each raises is in the tests above. -/
theorem witness_ErrorPriorityAndCauses :
    ∀ w ∈ ([0x01000008, 0x01001F01, 0x00001F01, 0x00002001, 0x0000C801, 0x0000C901, 0x0000C703, 0x0000C803, 0x00006102,
        0x00000005, 0x00000007, 0x00000000] : List CommandWord),
      ∃ t, issueCommand w (sample 136 1 .finalized) = .next t ∧ (sample 136 1 .finalized).err = false := by
  exact fun w _ => ⟨_, issueCommand_eq w _, rfl⟩
/-- The cause of each of those words, with the rows' priority: V-E6, V-E8 to V-E12, V-E14, V-E15, V-E20, V-E21. -/
theorem test_error_priority :
    [0x01000008, 0x01001F01, 0x00001F01, 0x00002001, 0x0000C801, 0x0000C901, 0x0000C703, 0x0000C803, 0x00006102,
      0x00000005, 0x00000007, 0x00000000].map
      (fun w => (nextOf (issueCommand w (sample 136 1 .finalized))).map fun t => t.errCause) =
    [0x01, 0x02, 0x03, 0x00, 0x00, 0x03, 0x00, 0x04, 0x05, 0x05, 0x06, 0x00].map some := by decide +kernel
theorem witness_FaultedRunHasNoNormalEnd :
    let s := hosting [.command 0x00018801, .read 0x00] sampleFaulted
    s.Faulted ∧ .reset ∉ s.transactions ∧ ∃ t, core.run 3 s = .next t :=
  ⟨by decide +kernel, by decide +kernel, _, rfl⟩
/-- A run whose error a reset clears, and a run without an error. -/
theorem witness_RunWithAnErrorIsFaulted :
    (∃ t, core.run 1 (hosting [.command 0x00000008, .reset] .reset) = .next t ∧ t.err = true) ∧
    ∀ (k : Nat) (t : State), core.run k State.reset = .next t → t.err = false := by
  refine ⟨⟨_, rfl, by decide +kernel⟩, fun k => ?_⟩
  induction k with
  | zero => rintro t ⟨⟩; rfl
  | succ k ih => exact ih
/-- V-E23: the run with the error is faulted although it ends with `ERR = 0`. -/
theorem test_reset_does_not_unfault_the_run :
    let s := hosting [.command 0x00000008, .reset] .reset
    s.RunFaulted ∧ ¬s.RunEndsNormally ∧ s.wholeRun.map (fun t => t.err) = [false, true, false] := by
  refine ⟨?_, fun h => h.2 ?_, by decide +kernel⟩ <;> decide +kernel
theorem witness_ResetSetsEveryRegister :
    (hosting [.reset] (sampleSaved 136 1 .finalized)).transactions[0]? = some .reset := by decide +kernel
/-- Every address falls under one clause, and both ends of each range are met. -/
theorem witness_ReadWindowMap :
    (0xC7 : Byte).toNat ≤ 0xC7 ∧ ¬(0xC8 : Byte).toNat ≤ 0xC7 ∧
    (∀ a ∈ ([0xCD, 0xCF] : List Byte), 0xCD ≤ a.toNat ∧ a.toNat ≤ 0xCF) ∧
    (∀ a ∈ ([0xD0, 0xEF] : List Byte), 0xD0 ≤ a.toNat ∧ a.toNat ≤ 0xEF) ∧
    (∀ a ∈ ([0xF0, 0xFF] : List Byte), 0xF0 ≤ a.toNat) := by decide
theorem witness_ReadHasNoSideEffect :
    (hosting [.read 0xCB] sampleFaulted).transactions[0]? = some (.read 0xCB) := by decide +kernel
/-- Two different states that read the same at every address. -/
theorem witness_WindowShowsEveryOtherRegister :
    ∃ s t : State, s ≠ t ∧ ∀ a : Byte, readByte s a = readByte t a :=
  ⟨State.reset, State.reset.withoutUntouched, by decide +kernel, fun _ => rfl⟩
theorem witness_PlatformReadsTheWindow : Config.windowBase + 256 ≤ Config.windowBase + 256 := Nat.le_refl _
/-- V-P6: a non-zero lane file whose column parities are 0; rows of zeros and of ones. -/
theorem witness_PermutationCornerCases :
    (lanes [1, 0, 0, 0, 0, 1] ≠ zeroLanes ∧ ∀ x, columnParity (lanes [1, 0, 0, 0, 0, 1]) x = 0) ∧
    (∀ x, laneAt (lanes [1]) x 4 = 0) ∧
    (∀ x, laneAt (lanes (List.replicate 5 0xFFFFFFFFFFFFFFFF)) x 0 = 0xFFFFFFFFFFFFFFFF) ∧
    (∀ x y, laneAt zeroLanes x y = 0) := by decide +kernel
/-- At the start of a session, and with one byte left of a block. -/
theorem witness_UpdateIsBlockwiseAbsorption :
    ∀ s ∈ [State.reset, sample 136 135 .absorbing], s.err = false ∧ s.session.phase = .absorbing ∧ s.session.Wf := by
  decide +kernel
theorem witness_ChunkingIndependence :
    (135 < 136 ∧ 0 < 1) ∧ (sample 136 135 .absorbing).err = false ∧
    (sample 136 135 .absorbing).session.phase = .absorbing ∧ (sample 136 135 .absorbing).session.Wf := by decide +kernel
theorem witness_SessionComputesTheSpongeDigest :
    (sample 136 1 .finalized).err = false ∧
    ∀ rate ∈ ([32, 200] : List Byte), 32 ≤ rate.toNat ∧ rate.toNat ≤ 200 := by decide +kernel
/-- A single byte left of the block, and a block of a single byte. -/
theorem witness_PaddingIsPad10Star1 :
    0 < 1 ∧ padMessage 136 0x01 (List.replicate 135 0x00) = List.replicate 135 0x00 ++ [0x81] ∧
    bitString (padMessage 1 0x01 []) = [true, false, false, false, false, false, false, true] := by decide +kernel
theorem witness_CheckpointIsIndependent :
    (.save ∉ [Instr.absorb 0x62, .nop]) ∧
    (∃ t, runCommands [.absorb 0x62, .nop] (sampleSaved 136 1 .absorbing) = .next t) ∧
    (sample 136 1 .absorbing).err = false ∧
    (∃ t, runCommands (.save :: ([.absorb 0x62, .nop] ++ [.restore])) (sample 136 1 .absorbing) = .next t ∧
      t.err = false) :=
  ⟨by decide, ⟨_, rfl⟩, by decide +kernel, ⟨_, rfl, by decide +kernel⟩⟩
/-- A step that clears `OUT`; `test_finalize` shows one that writes it. -/
theorem witness_OutIsWrittenOnlyByFinalize :
    ∃ s t : State, step s = .next t ∧ t.out ≠ s.out :=
  ⟨hosting [.reset] { State.reset with out := Vector.replicate 32 0x58 }, _, rfl, by decide +kernel⟩
/-- A new rate by `INIT`, by `RESTORE` and by reset. -/
theorem witness_RateAndDelimiterAreImmutable :
    let s := fun tr => hosting [tr] (sampleSaved 32 1 .absorbing)
    (∃ t, step (s (.command 0x0001C801)) = .next t ∧ t.session.rate ≠ 32) ∧
    (∃ t, step (s (.command 0x00000007)) = .next t ∧ t.session.rate ≠ 32) ∧
    (∃ t, step (s .reset) = .next t ∧ t.session.rate ≠ 32) ∧ (s .reset).session.rate = 32 :=
  ⟨⟨_, rfl, by decide +kernel⟩, ⟨_, rfl, by decide +kernel⟩, ⟨_, rfl, by decide +kernel⟩, by decide +kernel⟩
/-- The invariant in a session in use, with a valid checkpoint, and in a faulted state. -/
theorem witness_StepKeepsTheInvariant :
    (sampleSaved 136 135 .absorbing).Inv ∧ sampleFaulted.Inv ∧
    ∃ t, step (hosting [.command 0x00006102] (sampleSaved 136 1 .absorbing)) = .next t :=
  ⟨by decide +kernel, by decide +kernel, _, rfl⟩
/-- Two different states that differ only in `UNTOUCHED`, and a step from each. -/
theorem witness_UntouchedIsUnobservable :
    ∃ s t : State, s ≠ t ∧ s.withoutUntouched = t.withoutUntouched ∧ (∃ s', step s = .next s') ∧ ∃ t', step t = .next t' :=
  ⟨hosting [.command 0x00006102] .reset, hosting [.command 0x00006102] State.reset.withoutUntouched,
    by decide +kernel, by decide +kernel, ⟨_, rfl⟩, ⟨_, rfl⟩⟩
/-- With bytes absorbed, at the last offset of a block. -/
theorem witness_OverwriteEqualsXorWhileUntouched :
    let ss : Session := { newSession 136 0x01 with lanes := lanes [0x61], offset := 135 }
    ss.Wf ∧ ss.untouched = true := by decide +kernel
/-- Two different states that differ only in an invalid slot, and a step from each. -/
theorem witness_InvalidSlotIsUnobservable :
    ∃ s t : State, s ≠ t ∧ s.withoutInvalidSlot = t.withoutInvalidSlot ∧ (∃ s', step s = .next s') ∧
      ∃ t', step t = .next t' :=
  ⟨hosting [.command 0x00000007] .reset,
    hosting [.command 0x00000007] { State.reset with sv := newSession 32 0xFF },
    by decide +kernel, by decide +kernel, ⟨_, rfl⟩, ⟨_, rfl⟩⟩
/-- Two instances, of which one takes a step. -/
theorem witness_InstancesDoNotInteract :
    let sys : System := [hosting [.read 0x00] .reset, sampleFaulted]
    (1 ≠ 0 ∧ sys[0]? = some (hosting [.read 0x00] .reset)) ∧ ∃ t, step (hosting [.read 0x00] .reset) = .next t :=
  ⟨⟨by decide, rfl⟩, _, rfl⟩

end Sys2Proof.Tests
end

section
/-! SUPPORT. The lane file as the 25 little-endian 64-bit words of its 200 bytes (spec/00_scope.md R11). -/

namespace Sys2Proof.Machine

/-- Byte `k` of lane (x,y) stands at `8·(5y+x) + k` (R11). -/
theorem byteAt_eq_extract_laneAt (a : LaneFile) (x y : Fin 5) {k : Nat} (hk : k < 8) :
    byteAt a (8 * (x.val + 5 * y.val) + k) = (laneAt a x y).extractLsb' (8 * k) 8 := by
  have hlane : (8 * (x.val + 5 * y.val) + k) / 8 = x.val + 5 * y.val := by omega
  have hbyte : (8 * (x.val + 5 * y.val) + k) % 8 = k := by omega
  rw [byteAt, hlane, hbyte, laneAt_eq_laneOf]

/-- The low `m` bytes of a word, least significant first, sum to its value modulo `2^(8m)`. -/
theorem toNat_mod_eq_sum_extract {w : Nat} (v : BitVec w) (m : Nat) :
    v.toNat % 256 ^ m = ∑ k ∈ Finset.range m, 2 ^ (8 * k) * (v.extractLsb' (8 * k) 8).toNat := by
  induction m with
  | zero => simp [Nat.mod_one]
  | succ m ih =>
    have hbyte : (v.extractLsb' (8 * m) 8).toNat = v.toNat / 256 ^ m % 256 := by
      rw [BitVec.extractLsb'_toNat, Nat.shiftRight_eq_div_pow, Nat.pow_mul]
    rw [Finset.sum_range_succ, ← ih, hbyte, Nat.pow_mul, Nat.mod_pow_succ]

/-- A lane is the little-endian value of its eight bytes. -/
theorem lane_toNat_eq_sum_extract (v : Lane) :
    v.toNat = ∑ k ∈ Finset.range 8, 2 ^ (8 * k) * (v.extractLsb' (8 * k) 8).toNat := by
  have hlt : v.toNat < 256 ^ 8 := v.isLt
  rw [← toNat_mod_eq_sum_extract, Nat.mod_eq_of_lt hlt]

/-- Settles O31: a byte is its bits of the lane by its index, and the lane is the sum of those bytes. -/
theorem laneAndByteViewsAgree : Obligations.LaneAndByteViewsAgree := by
  intro a x y
  have hbytes : ∀ k < 8, byteAt a (8 * (x.val + 5 * y.val) + k) = (laneAt a x y).extractLsb' (8 * k) 8 :=
    fun k hk => byteAt_eq_extract_laneAt a x y hk
  refine ⟨?_, hbytes⟩
  rw [lane_toNat_eq_sum_extract]
  refine Finset.sum_congr rfl fun k hk => ?_
  rw [hbytes k (Finset.mem_range.1 hk)]

end Sys2Proof.Machine
end

section
/-! SUPPORT. A step is the host's next transaction served (spec/00_scope.md R5; spec/20_memory.md R53, R62). -/

namespace Sys2Proof.Machine

/-- Issuing a word that decodes to a command runs that command (R53). -/
theorem issueCommand_of_decode {w : CommandWord} {i : Instr} (h : decode w = .command i) (s : State) :
    issueCommand w s = exec i s := by
  rw [issueCommand, h]

/-- Serving a transaction always answers a next state (R200, R203; log entry 4). -/
theorem serve_answers_next (tr : Transaction) (s : State) : ∃ t, serve tr s = .next t := by
  cases tr with
  | command w => exact ⟨_, issueCommand_eq w s⟩
  | read a => exact ⟨_, rfl⟩
  | reset => exact ⟨_, rfl⟩

/-- Settles O7: the step issues the word at the advanced index, and issuing it runs what it decodes to. -/
theorem stepRunsTheDecodedCommand : Obligations.StepRunsTheDecodedCommand := by
  intro s w i hnext hdecode
  calc step s = issueCommand w (advance s) := step_command hnext
    _ = exec i (advance s) := issueCommand_of_decode hdecode _

/-- Settles O9: a transaction served answers a next state, and an exhausted list the same state. -/
theorem everyStepAnswersANextState : Obligations.EveryStepAnswersANextState := by
  intro s
  cases hnext : nextTransaction s with
  | none => exact ⟨s, step_ended hnext⟩
  | some tr =>
    obtain ⟨t, hserve⟩ := serve_answers_next tr (advance s)
    exact ⟨t, by rw [step, hnext]; exact hserve⟩

end Sys2Proof.Machine
end

section
/-! SUPPORT. A command as a check and an effect (spec/60_exceptions.md R202, R203), and what a step leaves of the
state: an issued word is ignored, enters an error, or runs the command it decodes to. -/

namespace Sys2Proof.Machine

/-- The cause a command's own check raises; none when the command takes its effect (R202 item 4). -/
def checkOf : Instr → State → Option ErrorCause
  | .init rate _, _ => if rateLegal rate then none else some .badRate
  | .xorb index _, _ => if indexLegal index then none else some .badIndex
  | .absorb _, s | .finalize, s =>
    match s.session.phase with
    | .finalized => some .sessionFinalized
    | .absorbing => none
  | .restore, s => if s.saveValid then none else some .noSavedContext
  | .nop, _ | .permute, _ | .save, _ => none

/-- The state a command leaves when its check passes. -/
def effectOf : Instr → State → State
  | .nop, s => s
  | .init rate delim, s => { s with session := newSession rate delim }
  | .absorb byte, s => { s with session := s.session.absorbByte byte }
  | .xorb index value, s => { s with session := s.session.xorByte index value }
  | .permute, s => { s with session := s.session.permute }
  | .finalize, s => { s with session := s.session.finalize, out := squeeze s.session.finalize.lanes }
  | .save, s => { s with sv := s.session, saveValid := true }
  | .restore, s => { s with session := s.sv }

/-- A command raises its check's cause, or takes its effect (R203). -/
theorem bodyOf_eq (i : Instr) (s : State) :
    bodyOf i s = (checkOf i s).elim (.ok (effectOf i s)) .error := by
  cases i with
  | nop => rfl
  | permute => rfl
  | save => rfl
  | init rate delim => cases h : rateLegal rate <;> simp [bodyOf, initBody, checkOf, effectOf, h]
  | xorb index value => cases h : indexLegal index <;> simp [bodyOf, xorbBody, checkOf, effectOf, h]
  | absorb byte => cases h : s.session.phase <;> simp [bodyOf, absorbBody, checkOf, effectOf, h]
  | finalize => cases h : s.session.phase <;> simp [bodyOf, finalizeBody, checkOf, effectOf, h]
  | restore => cases h : s.saveValid <;> simp [bodyOf, restoreBody, checkOf, effectOf, h]

/-- A command's body succeeds exactly when its check passes, and then leaves its effect. -/
theorem bodyOf_ok_iff {i : Instr} {s t : State} :
    bodyOf i s = .ok t ↔ checkOf i s = none ∧ effectOf i s = t := by
  rw [bodyOf_eq]
  cases checkOf i s <;> simp

/-- A command's body raises exactly the cause its check answers. -/
theorem bodyOf_error_iff {i : Instr} {s : State} {c : ErrorCause} :
    bodyOf i s = .error c ↔ checkOf i s = some c := by
  rw [bodyOf_eq]
  cases checkOf i s <;> simp

/-- A word that decodes to a command runs that command's body. -/
theorem issueBody_of_command {w : CommandWord} {i : Instr} (h : decode w = .command i) : issueBody w = bodyOf i := by
  rw [issueBody, h]

/-- An illegal word's body raises the decoder's cause (R202 items 2 and 3). -/
theorem issueBody_of_illegal {w : CommandWord} {c : ErrorCause} (h : decode w = .illegal c) (s : State) :
    issueBody w s = .error c := by
  rw [issueBody, h]

/-- A word's body succeeds exactly when it decodes to a command whose body does. -/
theorem issueBody_ok_iff {w : CommandWord} {s t : State} :
    issueBody w s = .ok t ↔ ∃ i, decode w = .command i ∧ bodyOf i s = .ok t := by
  cases h : decode w with
  | command i => simp [issueBody_of_command h]
  | illegal c => simp [issueBody_of_illegal h]

/-- A step runs the command of a decoded word, applies reset, or leaves the session, `OUT` and the slot. -/
theorem step_effect_cases {s t : State} (h : step s = .next t) :
    (∃ w i, nextTransaction s = some (.command w) ∧ decode w = .command i ∧ bodyOf i (advance s) = .ok t) ∨
    nextTransaction s = some .reset ∨
    (t.session = s.session ∧ t.out = s.out ∧ t.saveValid = s.saveValid ∧ t.sv = s.sv) := by
  rcases step_cases h with ⟨w, hnext, rfl⟩ | ⟨a, -, rfl⟩ | ⟨hnext, -⟩ | ⟨-, rfl⟩
  · rcases perform_cases (issueBody w) (advance s) with ⟨-, hp⟩ | ⟨t, -, hbody, hp⟩ | ⟨c, -, -, hp⟩
    · exact .inr (.inr (by simp [hp]))
    · obtain ⟨i, hdecode, hok⟩ := issueBody_ok_iff.1 hbody
      exact .inl ⟨w, i, hnext, hdecode, by rw [hp, hok]⟩
    · exact .inr (.inr (by simp [hp]))
  · exact .inr (.inr (by simp))
  · exact .inr (.inl hnext)
  · exact .inr (.inr ⟨rfl, rfl, rfl, rfl⟩)

/-- Only `INIT` and `RESTORE` write `RATE` or `DELIM` (R24, R25). -/
theorem effectOf_rate_delim {i : Instr} (hinit : ∀ rate delim, i ≠ .init rate delim) (hrestore : i ≠ .restore)
    (s : State) :
    (effectOf i s).session.rate = s.session.rate ∧ (effectOf i s).session.delim = s.session.delim := by
  cases i with
  | init rate delim => exact absurd rfl (hinit rate delim)
  | restore => exact absurd rfl hrestore
  | nop | absorb | xorb | permute | finalize | save => simp [effectOf]

/-- Settles O44: a command other than `FINALIZE` leaves `OUT`, and so does a step that runs none. -/
theorem outIsWrittenOnlyByFinalize : Obligations.OutIsWrittenOnlyByFinalize := by
  intro s t hstep hout
  rcases step_effect_cases hstep with ⟨w, i, hnext, hdecode, hbody⟩ | hreset | ⟨-, hkeep, -, -⟩
  · by_cases hi : i = .finalize
    · exact .inl ⟨w, hnext, by rw [hdecode, hi]⟩
    · obtain ⟨-, -, -, -, -, hkeep, -⟩ := bodyOf_ok_frame hbody
      exact absurd (hkeep hi) hout
  · exact .inr hreset
  · exact absurd hkeep hout

/-- Settles O45: a command other than `INIT` and `RESTORE` leaves both registers, and so does a step that runs
none. -/
theorem rateAndDelimiterAreImmutable : Obligations.RateAndDelimiterAreImmutable := by
  intro s t hstep hchange
  rcases step_effect_cases hstep with ⟨w, i, hnext, hdecode, hbody⟩ | hreset | ⟨hkeep, -, -, -⟩
  · obtain ⟨-, rfl⟩ := bodyOf_ok_iff.1 hbody
    by_cases hinit : ∃ rate delim, i = .init rate delim
    · obtain ⟨rate, delim, rfl⟩ := hinit
      exact .inl ⟨w, rate, delim, hnext, hdecode⟩
    · by_cases hrestore : i = .restore
      · exact .inr (.inl ⟨w, hnext, by rw [hdecode, hrestore]⟩)
      · obtain ⟨hrate, hdelim⟩ :=
          effectOf_rate_delim (fun rate delim hi => hinit ⟨rate, delim, hi⟩) hrestore (advance s)
        exact absurd hchange (by simp [hrate, hdelim])
  · exact .inr (.inr hreset)
  · exact absurd hchange (by simp [hkeep])

/-- The host has a next transaction exactly while its index is within the list (R239). -/
theorem lt_length_of_nextTransaction {s : State} {tr : Transaction} (h : nextTransaction s = some tr) :
    s.pc < s.transactions.length :=
  (List.getElem?_eq_some_iff.1 h).1

/-- Settles O10: each of the three transactions keeps the list and follows the index that `advance` moved on. -/
theorem stepKeepsTheHostsList : Obligations.StepKeepsTheHostsList := by
  intro s t hstep
  rcases step_cases hstep with ⟨w, hnext, rfl⟩ | ⟨a, hnext, rfl⟩ | ⟨hnext, rfl⟩ | ⟨hnext, rfl⟩
  · obtain ⟨hlist, hpc, hanswers⟩ := perform_issueBody_host w (advance s)
    rw [if_pos (lt_length_of_nextTransaction hnext)]
    exact ⟨hlist, hpc, .inl hanswers⟩
  · rw [if_pos (lt_length_of_nextTransaction hnext)]
    exact ⟨rfl, rfl, .inr ⟨a, hnext, rfl⟩⟩
  · rw [if_pos (lt_length_of_nextTransaction hnext)]
    exact ⟨rfl, rfl, .inl rfl⟩
  · have hended : ¬t.pc < t.transactions.length := Nat.not_lt.2 (List.getElem?_eq_none_iff.1 hnext)
    rw [if_neg hended]
    exact ⟨rfl, rfl, .inl rfl⟩

end Sys2Proof.Machine
end

section
/-! SUPPORT. The invariant between transactions (spec/10_state.md R23, R24, R29, R33): every session a command starts
or changes is well formed, and every step keeps the error registers in agreement. -/

namespace Sys2Proof.Machine

/-- A session that is not untouched owes R33 nothing. -/
theorem Session.wf_of_touched {ss : Session} (hrate : rateLegal ss.rate = true)
    (hoffset : ss.offset.toNat < ss.rate.toNat) (htouched : ss.untouched = false) : ss.Wf :=
  ⟨hrate, hoffset, fun h => absurd h (by simp [htouched])⟩

theorem newSession_wf {rate : Byte} (delim : Byte) (h : rateLegal rate = true) : (newSession rate delim).Wf := by
  obtain ⟨hmin, -⟩ := (rateLegal_iff rate).1 h
  refine ⟨h, ?_, fun _ i _ _ => byteAt_zeroLanes i⟩
  simp only [newSession_offset, newSession_rate, BitVec.ofNat_eq_ofNat, BitVec.toNat_ofNat]
  omega

theorem Session.permute_wf {ss : Session} (h : ss.Wf) : ss.permute.Wf := by
  obtain ⟨hrate, hoffset, -⟩ := h
  exact wf_of_touched hrate hoffset rfl

theorem Session.xorByte_wf {ss : Session} (index value : Byte) (h : ss.Wf) : (ss.xorByte index value).Wf := by
  obtain ⟨hrate, hoffset, -⟩ := h
  exact wf_of_touched hrate hoffset rfl

theorem Session.finalize_wf {ss : Session} (h : ss.Wf) : ss.finalize.Wf := by
  obtain ⟨hrate, hoffset, -⟩ := h
  exact wf_of_touched hrate hoffset rfl

theorem Session.completeBlock_wf {ss : Session} (h : rateLegal ss.rate = true) : ss.completeBlock.Wf := by
  obtain ⟨hmin, -⟩ := (rateLegal_iff ss.rate).1 h
  refine wf_of_touched h ?_ rfl
  simp only [completeBlock_offset, completeBlock_rate, BitVec.ofNat_eq_ofNat, BitVec.toNat_ofNat]
  omega

/-- A byte stored before the block's last leaves the bytes beyond it as they are (R33, R142). -/
theorem Session.fill_wf {ss : Session} (byte : Byte) (h : ss.Wf) (hroom : ss.offset.toNat + 1 ≠ ss.rate.toNat) :
    (ss.fill byte).Wf := by
  obtain ⟨hrate, hoffset, hzero⟩ := h
  obtain ⟨-, hmax⟩ := (rateLegal_iff ss.rate).1 hrate
  have hnext : (ss.fill byte).offset.toNat = ss.offset.toNat + 1 := by
    rw [fill_offset, BitVec.toNat_ofNat]
    omega
  refine ⟨hrate, ?_, fun huntouched i hi hfrom => ?_⟩
  · rw [hnext, fill_rate]
    omega
  · have hne : ss.offset.toNat ≠ i := by omega
    rw [fill_lanes, byteAt_xorByteAt _ (by omega), if_neg hne]
    exact hzero huntouched i hi (by omega)

/-- The block's last byte completes the block (R142, R143). -/
theorem Session.absorbByte_of_last {ss : Session} {byte : Byte} (h : ss.offset.toNat + 1 = ss.rate.toNat) :
    ss.absorbByte byte = (ss.fill byte).completeBlock :=
  if_pos h

/-- A byte before the block's last is stored and no more (R142). -/
theorem Session.absorbByte_of_room {ss : Session} {byte : Byte} (h : ss.offset.toNat + 1 ≠ ss.rate.toNat) :
    ss.absorbByte byte = ss.fill byte :=
  if_neg h

theorem Session.absorbByte_wf {ss : Session} (byte : Byte) (h : ss.Wf) : (ss.absorbByte byte).Wf := by
  by_cases hlast : ss.offset.toNat + 1 = ss.rate.toNat
  · obtain ⟨hrate, -, -⟩ := h
    rw [absorbByte_of_last hlast]
    exact completeBlock_wf hrate
  · rw [absorbByte_of_room hlast]
    exact fill_wf byte h hlast

/-- Settles O46: the reset session is the one `INIT 136, 0x01` starts (R232), and reset leaves no checkpoint and
no error. -/
theorem invariantHoldsAtReset : Obligations.InvariantHoldsAtReset := by
  have hsession : State.reset.session = newSession 136 0x01 := rfl
  refine ⟨hsession ▸ newSession_wf 0x01 (by decide), ?_, rfl⟩
  intro hvalid
  cases hvalid

theorem applyReset_inv (s : State) : (applyReset s).Inv := invariantHoldsAtReset

theorem raiseError_inv {s : State} (c : ErrorCause) (h : s.Inv) : (raiseError c s).Inv := by
  obtain ⟨hsession, hslot, -⟩ := h
  exact ⟨hsession, hslot, causeCode_range c⟩

/-- The effect of a command whose check passes keeps the invariant. -/
theorem effectOf_inv {i : Instr} {s : State} (hcheck : checkOf i s = none) (h : s.Inv) : (effectOf i s).Inv := by
  obtain ⟨hsession, hslot, hcause⟩ := h
  cases i with
  | nop => exact ⟨hsession, hslot, hcause⟩
  | init rate delim => exact ⟨newSession_wf delim (by simpa [checkOf] using hcheck), hslot, hcause⟩
  | absorb byte => exact ⟨Session.absorbByte_wf byte hsession, hslot, hcause⟩
  | xorb index value => exact ⟨Session.xorByte_wf index value hsession, hslot, hcause⟩
  | permute => exact ⟨Session.permute_wf hsession, hslot, hcause⟩
  | finalize => exact ⟨Session.finalize_wf hsession, hslot, hcause⟩
  | save => exact ⟨hsession, fun _ => hsession, hcause⟩
  | restore => exact ⟨hslot (by simpa [checkOf] using hcheck), hslot, hcause⟩

/-- Issuing a word keeps the invariant. -/
theorem perform_issueBody_inv (w : CommandWord) {s : State} (h : s.Inv) : (perform (issueBody w) s).Inv := by
  rcases perform_cases (issueBody w) s with ⟨-, hp⟩ | ⟨t, -, hbody, hp⟩ | ⟨c, -, -, hp⟩
  · rwa [hp]
  · obtain ⟨i, -, hok⟩ := issueBody_ok_iff.1 hbody
    obtain ⟨hcheck, rfl⟩ := bodyOf_ok_iff.1 hok
    rw [hp]
    exact effectOf_inv hcheck h
  · rw [hp]
    exact raiseError_inv c h

/-- Settles O47: a word keeps the invariant, a read changes none of its registers, and reset sets it up afresh. -/
theorem stepKeepsTheInvariant : Obligations.StepKeepsTheInvariant := by
  intro s t hinv hstep
  have hadvance : (advance s).Inv := hinv
  rcases step_cases hstep with ⟨w, -, rfl⟩ | ⟨a, -, rfl⟩ | ⟨-, rfl⟩ | ⟨-, rfl⟩
  · exact perform_issueBody_inv w hadvance
  · exact hadvance
  · exact applyReset_inv (advance s)
  · exact hinv

end Sys2Proof.Machine
end

section
/-! SUPPORT. State that no host can observe (spec/10_state.md R31, R32). A function that erases part of the state is
invisible when no read, check, effect, error entry or reset depends on what it erases; then no step does. -/

namespace Sys2Proof.Machine

/-- Nothing the block does depends on the part of the state that `erase` erases. -/
structure Invisible (erase : State → State) : Prop where
  /-- The host's transaction is the same. -/
  nextTransaction (s : State) : nextTransaction (erase s) = nextTransaction s
  /-- `ERR` is the same. -/
  err (s : State) : (erase s).err = s.err
  /-- Every read answers the same. -/
  readByte (s : State) (a : Byte) : readByte (erase s) a = readByte s a
  advance (s : State) : advance (erase s) = erase (advance s)
  answerRead (a : Byte) (s : State) : answerRead a (erase s) = erase (answerRead a s)
  raiseError (c : ErrorCause) (s : State) : raiseError c (erase s) = erase (raiseError c s)
  applyReset (s : State) : applyReset (erase s) = applyReset s
  /-- Every command's check answers the same. -/
  check (i : Instr) (s : State) : checkOf i (erase s) = checkOf i s
  /-- Every command's effect is the same but for what is erased. -/
  effect {i : Instr} {s : State} (hcheck : checkOf i s = none) : erase (effectOf i (erase s)) = erase (effectOf i s)

namespace Invisible

variable {erase : State → State}

/-- Erasing twice is erasing once: the effect of `NOP`. -/
theorem erase_erase (h : Invisible erase) (s : State) : erase (erase s) = erase s :=
  h.effect (i := .nop) rfl

/-- Error entry from an erased state. -/
theorem erase_raiseError (h : Invisible erase) (c : ErrorCause) (s : State) :
    erase (Machine.raiseError c (erase s)) = erase (Machine.raiseError c s) := by
  rw [h.raiseError, h.erase_erase]

/-- Issuing a word gives the same state but for what is erased. -/
theorem perform_issueBody (h : Invisible erase) (w : CommandWord) (s : State) :
    erase (perform (issueBody w) (erase s)) = erase (perform (issueBody w) s) := by
  cases herr : s.err with
  | true => rw [perform_of_err _ herr, perform_of_err _ ((h.err s).trans herr), h.erase_erase]
  | false =>
    have herr' : (erase s).err = false := (h.err s).trans herr
    cases hd : decode w with
    | illegal c =>
      rw [perform_of_error herr (issueBody_of_illegal hd s), perform_of_error herr' (issueBody_of_illegal hd _),
        h.erase_raiseError]
    | command i =>
      rw [issueBody_of_command hd]
      cases hcheck : checkOf i s with
      | none =>
        have hcheck' : checkOf i (erase s) = none := (h.check i s).trans hcheck
        rw [perform_of_ok herr (bodyOf_ok_iff.2 ⟨hcheck, rfl⟩), perform_of_ok herr' (bodyOf_ok_iff.2 ⟨hcheck', rfl⟩),
          h.effect hcheck]
      | some c =>
        have hcheck' : checkOf i (erase s) = some c := (h.check i s).trans hcheck
        rw [perform_of_error herr (bodyOf_error_iff.2 hcheck), perform_of_error herr' (bodyOf_error_iff.2 hcheck'),
          h.erase_raiseError]

/-- Serving a transaction gives the same state but for what is erased. -/
theorem step_erase (h : Invisible erase) {s t u : State} (hs : step s = .next t) (he : step (erase s) = .next u) :
    erase u = erase t := by
  have hnext := h.nextTransaction s
  cases htr : Machine.nextTransaction s with
  | none =>
    rw [step_ended htr] at hs
    rw [step_ended (hnext.trans htr)] at he
    cases hs
    cases he
    exact h.erase_erase s
  | some tr =>
    cases tr with
    | command w =>
      rw [step_command htr, issueCommand_eq] at hs
      rw [step_command (hnext.trans htr), issueCommand_eq, h.advance] at he
      cases hs
      cases he
      exact h.perform_issueBody w (Machine.advance s)
    | read a =>
      rw [step_read htr] at hs
      rw [step_read (hnext.trans htr), h.advance, h.answerRead] at he
      cases hs
      cases he
      exact h.erase_erase _
    | reset =>
      rw [step_reset htr] at hs
      rw [step_reset (hnext.trans htr), h.advance, h.applyReset] at he
      cases hs
      cases he
      rfl

/-- States that agree but for what is erased still do after a step, and read the same at every address. -/
theorem unobservable (h : Invisible erase) {s t s' t' : State} (heq : erase s = erase t) (hs : step s = .next s')
    (ht : step t = .next t') : erase s' = erase t' ∧ ∀ a, Machine.readByte s' a = Machine.readByte t' a := by
  obtain ⟨u, hu⟩ := everyStepAnswersANextState (erase s)
  have hstep : erase s' = erase t' :=
    (h.step_erase hs hu).symm.trans (h.step_erase ht (heq ▸ hu))
  refine ⟨hstep, fun a => ?_⟩
  rw [← h.readByte s', ← h.readByte t', hstep]

end Invisible

/-- A session with its `UNTOUCHED` flag cleared. -/
def Session.touched (ss : Session) : Session := { ss with untouched := false }

/-- Absorbing a byte writes the same session but for `UNTOUCHED`. -/
theorem Session.absorbByte_touched (ss : Session) (byte : Byte) :
    (ss.touched.absorbByte byte).touched = (ss.absorbByte byte).touched := by
  by_cases hlast : ss.offset.toNat + 1 = ss.rate.toNat
  · rw [absorbByte_of_last hlast, absorbByte_of_last (ss := ss.touched) hlast]
    rfl
  · rw [absorbByte_of_room hlast, absorbByte_of_room (ss := ss.touched) hlast]
    rfl

theorem withoutUntouched_invisible : Invisible State.withoutUntouched where
  nextTransaction _ := rfl
  err _ := rfl
  readByte _ _ := rfl
  advance _ := rfl
  answerRead _ _ := rfl
  raiseError _ _ := rfl
  applyReset _ := rfl
  check i _ := by cases i <;> rfl
  effect {i s} _ := by
    cases i with
    | absorb byte =>
      exact congrArg (fun ss => { s.withoutUntouched with session := ss }) (s.session.absorbByte_touched byte)
    | nop | init | xorb | permute | finalize | save | restore => rfl

/-- Settles O48: no command's check or effect, and no read, uses an `UNTOUCHED` flag. -/
theorem untouchedIsUnobservable : Obligations.UntouchedIsUnobservable :=
  fun _ _ _ _ heq hs ht => withoutUntouched_invisible.unobservable heq hs ht

/-- What of the slot a command may use: its contents while a checkpoint is valid, and nothing of them otherwise
(R31). -/
def State.visibleSlot (s : State) : Session := if s.saveValid then s.sv else Session.blank

/-- Erasing an invalid slot's contents writes the slot and no other register. -/
theorem withoutInvalidSlot_eq (s : State) : s.withoutInvalidSlot = { s with sv := s.visibleSlot } := by
  unfold State.withoutInvalidSlot State.visibleSlot
  split <;> rfl

theorem withoutInvalidSlot_of_valid {s : State} (h : s.saveValid = true) : s.withoutInvalidSlot = s :=
  if_pos h

theorem withoutInvalidSlot_withoutInvalidSlot (s : State) :
    s.withoutInvalidSlot.withoutInvalidSlot = s.withoutInvalidSlot := by
  cases h : s.saveValid <;> simp [State.withoutInvalidSlot, h]

/-- A command other than `SAVE` and `RESTORE` neither writes nor reads the slot. -/
theorem effectOf_withoutInvalidSlot {i : Instr} (hsave : i ≠ .save) (hrestore : i ≠ .restore) (s : State) :
    effectOf i s.withoutInvalidSlot = (effectOf i s).withoutInvalidSlot := by
  simp only [withoutInvalidSlot_eq]
  cases i with
  | save => exact absurd rfl hsave
  | restore => exact absurd rfl hrestore
  | nop | init | absorb | xorb | permute | finalize => rfl

theorem withoutInvalidSlot_invisible : Invisible State.withoutInvalidSlot where
  nextTransaction s := by rw [withoutInvalidSlot_eq]; rfl
  err s := by rw [withoutInvalidSlot_eq]
  readByte s a := by rw [withoutInvalidSlot_eq]; rfl
  advance s := by simp only [withoutInvalidSlot_eq]; rfl
  answerRead a s := by simp only [withoutInvalidSlot_eq]; rfl
  raiseError c s := by simp only [withoutInvalidSlot_eq]; rfl
  applyReset s := by rw [withoutInvalidSlot_eq]; rfl
  check i s := by rw [withoutInvalidSlot_eq]; cases i <;> rfl
  effect {i s} hcheck := by
    by_cases hsave : i = .save
    · subst hsave
      simp only [withoutInvalidSlot_eq]
      rfl
    · by_cases hrestore : i = .restore
      · subst hrestore
        have hvalid : s.saveValid = true := by simpa [checkOf] using hcheck
        rw [withoutInvalidSlot_of_valid hvalid]
      · rw [effectOf_withoutInvalidSlot hsave hrestore, withoutInvalidSlot_withoutInvalidSlot]

/-- Settles O50: `RESTORE` is refused while the slot is invalid, and nothing else uses its contents. -/
theorem invalidSlotIsUnobservable : Obligations.InvalidSlotIsUnobservable :=
  fun _ _ _ _ heq hs ht => withoutInvalidSlot_invisible.unobservable heq hs ht

end Sys2Proof.Machine
end

section
/-! SUPPORT. The bits of STATUS as a host reads them (spec/10_state.md R37). -/

namespace Sys2Proof.Machine

theorem readByte_status (s : State) : readByte s 0xCB = statusByte s := rfl

/-- STATUS bit by bit (R37). -/
theorem getLsbD_statusByte (s : State) (n : Nat) :
    (statusByte s).getLsbD n =
      if n = 0 then s.session.phase.bit.getLsbD 0
      else if n = 1 then s.err
      else if n = 2 then s.saveValid
      else false := by
  unfold statusByte
  simp only [BitVec.getLsbD_append]
  match n with
  | 0 => simp
  | 1 => simp
  | 2 => simp
  | n + 3 => simp

theorem Phase.getLsbD_bit (p : Phase) : p.bit.getLsbD 0 = true ↔ p = .finalized := by
  cases p <;> decide

/-- Settles O28: the byte at 0xCB is STATUS, read bit by bit. -/
theorem statusByteBits : Obligations.StatusByteBits := by
  refine ⟨fun s => ?_, rfl⟩
  simp only [readByte_status, getLsbD_statusByte]
  refine ⟨Phase.getLsbD_bit _, rfl, rfl, fun n hn => ?_⟩
  rw [if_neg (by omega), if_neg (by omega), if_neg (by omega)]

end Sys2Proof.Machine
end

section
/-! SUPPORT. What the host sees of the block through its two ports: the word it issues next (spec/20_memory.md R53),
and the bytes it reads (R51). -/

namespace Sys2Proof.Machine

/-- A command word is the 32-bit word of its own value. -/
theorem tableWord_toNat (w : CommandWord) : tableWord 32 w.toNat = w := by
  rw [tableWord, Nat.mod_eq_of_lt w.isLt, BitVec.ofNat_toNat, BitVec.setWidth_eq]

/-- Loading a 32-bit word by its value puts that word into the host's list. -/
theorem withFetchWord_toNat (s : State) (w : CommandWord) : s.withFetchWord 32 w.toNat = loadWord w s := by
  rw [State.withFetchWord, tableWord_toNat]

/-- Settles O11: loading puts the word at the host's index of the list, and writes the list only. -/
theorem fetchWordIsTheNextCommand : Obligations.FetchWordIsTheNextCommand := by
  intro s w
  rw [withFetchWord_toNat]
  exact ⟨getElem?_putAt _ _ _, fun k hk hne => getElem?_putAt_ne _ _ hk hne, rfl⟩

/-- Issuing an illegal word is ignored while `ERR = 1`, and otherwise enters the decoder's error (R202). -/
theorem perform_issueBody_of_illegal {w : CommandWord} {c : ErrorCause} (h : decode w = .illegal c) (s : State) :
    perform (issueBody w) s = if s.err then s else raiseError c s := by
  cases herr : s.err with
  | true => exact perform_of_err _ herr
  | false => exact perform_of_error herr (issueBody_of_illegal h s)

/-- Settles O8: a step serves the transaction at the advanced index, and `advance` moves the index only. -/
theorem stepServesIllegalWordsReadsAndTheEnd : Obligations.StepServesIllegalWordsReadsAndTheEnd := by
  refine ⟨fun s w c hnext hillegal => ?_, fun s a hnext => step_read hnext, fun s hend => step_ended hend⟩
  rw [step_command hnext, issueCommand_eq, perform_issueBody_of_illegal hillegal]
  rfl

end Sys2Proof.Machine
end

section
/-! SUPPORT. The host's read window, address by address, and where it stands on a platform (spec/20_memory.md R51, R52,
R61). -/

namespace Sys2Proof.Machine

theorem readByte_lanes (s : State) {a : Byte} (h : a.toNat ≤ 0xC7) : readByte s a = byteAt s.session.lanes a.toNat :=
  if_pos (by omega)

theorem readByte_offset (s : State) : readByte s 0xC8 = s.session.offset := rfl
theorem readByte_rate (s : State) : readByte s 0xC9 = s.session.rate := rfl
theorem readByte_delim (s : State) : readByte s 0xCA = s.session.delim := rfl
theorem readByte_errCause (s : State) : readByte s 0xCC = s.errCause := rfl

/-- From 0xCD on the window holds `OUT` at 0xD0 to 0xEF and zeros elsewhere. -/
theorem readByte_above_errCause (s : State) {a : Byte} (h : 0xCD ≤ a.toNat) :
    readByte s a = if 0xD0 ≤ a.toNat ∧ a.toNat ≤ 0xEF then outAt s.out (a.toNat - 0xD0) else 0x00 := by
  unfold readByte
  rw [if_neg (by omega), if_neg (by omega), if_neg (by omega), if_neg (by omega), if_neg (by omega),
    if_neg (by omega)]
  by_cases hlow : a.toNat < 0xD0
  · rw [if_pos hlow, if_neg (by omega)]
  · by_cases hout : a.toNat < 0xF0
    · rw [if_neg hlow, if_pos hout, if_pos (by omega)]
    · rw [if_neg hlow, if_neg hout, if_neg (by omega)]

/-- Settles O26: each register's own read lemma, and the part above ERR_CAUSE cut into `OUT` and the zeros. -/
theorem readWindowMap : Obligations.ReadWindowMap := by
  intro s a
  refine ⟨readByte_lanes s, ?_, ?_, ?_, ?_, ?_, fun h => ?_, fun h => ?_, fun h => ?_⟩
  · rintro rfl; exact readByte_offset s
  · rintro rfl; exact readByte_rate s
  · rintro rfl; exact readByte_delim s
  · rintro rfl; exact readByte_status s
  · rintro rfl; exact readByte_errCause s
  · rw [readByte_above_errCause s (by omega), if_neg (by omega)]
  · rw [readByte_above_errCause s (by omega), if_pos h]
  · rw [readByte_above_errCause s (by omega), if_neg (by omega)]

/-- The window is a function of the block's registers: the host's side does not change what it reads. -/
theorem readByte_answerRead_advance (s : State) (a b : Byte) : readByte (answerRead a (advance s)) b = readByte s b :=
  rfl

/-- Settles O27: the step answers the byte and writes only the host's index and answers, which no read depends on. -/
theorem readHasNoSideEffect : Obligations.ReadHasNoSideEffect :=
  fun s a hnext => ⟨answerRead a (advance s), step_read hnext, rfl, rfl, readByte_answerRead_advance s a⟩

/-- Byte `i` of the lane file stands at address `i` of the window. -/
theorem byteAt_eq_readByte (s : State) {i : Nat} (h : i < 200) :
    byteAt s.session.lanes i = readByte s (BitVec.ofNat 8 i) := by
  have ha : (BitVec.ofNat 8 i).toNat = i := Nat.mod_eq_of_lt (by omega)
  rw [readByte_lanes s (by omega), ha]

/-- Byte `j` of `OUT` stands at address `0xD0 + j` of the window. -/
theorem outAt_eq_readByte (s : State) {j : Nat} (h : j < 32) :
    outAt s.out j = readByte s (BitVec.ofNat 8 (0xD0 + j)) := by
  have ha : (BitVec.ofNat 8 (0xD0 + j)).toNat = 0xD0 + j := Nat.mod_eq_of_lt (by omega)
  rw [readByte_above_errCause s (by omega), if_pos (by omega), ha, Nat.add_sub_cancel_left]

/-- The bit of STATUS that shows the phase determines it (R27). -/
theorem Phase.getLsbD_bit_injective {p q : Phase} (h : p.bit.getLsbD 0 = q.bit.getLsbD 0) : p = q := by
  revert h; cases p <;> cases q <;> decide

/-- STATUS determines the three bits it holds (R37). -/
theorem statusByte_injective {s t : State} (h : statusByte s = statusByte t) :
    s.session.phase = t.session.phase ∧ s.err = t.err ∧ s.saveValid = t.saveValid := by
  have hbit : ∀ n, (statusByte s).getLsbD n = (statusByte t).getLsbD n := fun n => by rw [h]
  simp only [getLsbD_statusByte] at hbit
  exact ⟨Phase.getLsbD_bit_injective (hbit 0), hbit 1, hbit 2⟩

/-- Settles O29: every register is read back at its own addresses, the lane file and `OUT` byte by byte. -/
theorem windowShowsEveryOtherRegister : Obligations.WindowShowsEveryOtherRegister := by
  intro s t hread
  have hlanes : s.session.lanes = t.session.lanes := laneFile_ext_bytes fun i hi => by
    rw [byteAt_eq_readByte s hi, byteAt_eq_readByte t hi, hread]
  have hout : s.out = t.out := digest_ext fun j hj => by
    rw [outAt_eq_readByte s hj, outAt_eq_readByte t hj, hread]
  obtain ⟨hphase, herr, hvalid⟩ := statusByte_injective (hread 0xCB)
  exact ⟨hlanes, hread 0xC8, hread 0xC9, hread 0xCA, hphase, herr, hread 0xCC, hout, hvalid⟩

/-- The platform address of a window address stands for that window address. -/
theorem windowOf_windowAddress (a : Byte) : windowOf (windowAddress a) = some a := by
  have hlt : a.toNat < Config.windowBytes := a.isLt
  rw [windowOf, windowAddress, if_pos (by omega), Nat.add_sub_cancel_left, BitVec.ofNat_toNat, BitVec.setWidth_eq]

/-- No platform address outside the window's 256 bytes stands for a window address. -/
theorem windowOf_outside {p : Nat} (h : p < Config.windowBase ∨ Config.windowBase + 256 ≤ p) : windowOf p = none :=
  if_neg (by simp only [Config.windowBytes]; omega)

/-- Settles O30: a platform read is the read at the window address that the platform address stands for. -/
theorem platformReadsTheWindow : Obligations.PlatformReadsTheWindow := by
  refine fun s => ⟨fun a => ?_, fun p hp => ?_⟩
  · exact congrArg (Option.map (readByte s)) (windowOf_windowAddress a)
  · rw [platformRead, windowOf_outside hp, Option.map_none]

end Sys2Proof.Machine
end

section
/-! SUPPORT. Decoding and encoding are inverse, the rows of the opcode map are the decoder's commands, and what the
decoder makes of the other words (spec/30_encoding.md R71 to R76, R80). -/

namespace Sys2Proof

/-- The decoder reads a command's word back as the command. -/
@[simp] theorem decode_encode (i : Instr) : decode (encode i) = .command i := by
  unfold decode
  simp only [opField_encode, aField_encode, bField_encode, rsvField_encode]
  cases i <;> rfl

/-- A word that decodes to a command is the command's word: they agree in all four fields. -/
theorem encode_of_decode {w : CommandWord} {i : Instr} (h : decode w = .command i) : encode i = w := by
  obtain ⟨hop, ha, hb, hrsv⟩ := fields_of_decode h
  apply word_ext
  · rw [opField_encode, hop]
  · rw [aField_encode, ha]
  · rw [bField_encode, hb]
  · rw [rsvField_encode, hrsv]

/-- Exactly one word decodes to a command, and it is the command's encoding. -/
theorem decode_eq_command_iff {w : CommandWord} {i : Instr} : decode w = .command i ↔ encode i = w :=
  ⟨encode_of_decode, fun h => h ▸ decode_encode i⟩

/-- Settles O2: the command's four fields decode to it, and a word is its four fields. -/
theorem decodeAndEncodeAreInverse : Obligations.DecodeAndEncodeAreInverse :=
  ⟨decode_encode, fun _ _ => encode_of_decode⟩

/-- A list of encodings is also one of decodings. -/
theorem encode_and_decode_of_encode {l : List (Instr × CommandWord)} (h : ∀ p ∈ l, encode p.1 = p.2) :
    ∀ p ∈ l, encode p.1 = p.2 ∧ decode p.2 = .command p.1 :=
  fun p hp => ⟨h p hp, decode_eq_command_iff.2 (h p hp)⟩

/-- Settles O1: the twelve words are computed by the encoder, and the decoder inverts it. -/
theorem workedEncodings : Obligations.WorkedEncodings :=
  encode_and_decode_of_encode (by decide)

/-- The word of a command is of the row of the command's mnemonic and of no other. -/
theorem holds_encode_iff (i : Instr) {row : OpcodeRow} (hrow : row ∈ opcodeTable) :
    row.holds (encode i) = true ↔ row.mnemonic = i.mnemonic := by
  have hrows : Laws.RowMatch.Statement i := by
    cases i with
    | nop => exact Laws.RowMatch.nop
    | init rate delim => exact Laws.RowMatch.init rate delim
    | absorb byte => exact Laws.RowMatch.absorb byte
    | xorb index value => exact Laws.RowMatch.xorb index value
    | permute => exact Laws.RowMatch.permute
    | finalize => exact Laws.RowMatch.finalize
    | save => exact Laws.RowMatch.save
    | restore => exact Laws.RowMatch.restore
  exact hrows.2 row hrow

/-- The command of a mnemonic whose operand fields hold `a` and `b`; a field it does not have is dropped (R72). -/
def Mnemonic.command (a b : Byte) : Mnemonic → Instr
  | .nop => .nop
  | .init => .init a b
  | .absorb => .absorb a
  | .xorb => .xorb a b
  | .permute => .permute
  | .finalize => .finalize
  | .save => .save
  | .restore => .restore

@[simp] theorem Mnemonic.mnemonic_command (a b : Byte) (m : Mnemonic) : (m.command a b).mnemonic = m := by
  cases m <;> rfl

/-- Every row asks for its opcode in full and for a zero `RSV` (R73). -/
theorem opcodeTable_op_and_rsv {row : OpcodeRow} (hrow : row ∈ opcodeTable) :
    (opField row.mask = 255#8 ∧ opField row.matchBits = row.mnemonic.opcode) ∧
      (rsvField row.mask = 255#8 ∧ rsvField row.matchBits = 0) := by
  revert row; decide

theorem byte_and_255 (x : Byte) : x &&& 255#8 = x := BitVec.and_allOnes

/-- A row lets an operand field pass as it is where its command has the operand, and asks for 0 elsewhere (R72). -/
theorem operands_of_masked {row : OpcodeRow} (hrow : row ∈ opcodeTable) {a b : Byte}
    (ha : a &&& aField row.mask = aField row.matchBits) (hb : b &&& bField row.mask = bField row.matchBits) :
    a = (row.mnemonic.command a b).operandA ∧ b = (row.mnemonic.command a b).operandB := by
  simp only [opcodeTable, List.mem_cons, List.not_mem_nil, or_false] at hrow
  rcases hrow with rfl | rfl | rfl | rfl | rfl | rfl | rfl | rfl <;>
    simp only [aField, bField, BitVec.reduceExtractLsb', byte_and_255] at ha hb <;>
    simp [Mnemonic.command, Instr.operandA, Instr.operandB, ha, hb]

/-- A word of a row is the word of the row's command with the operands that stand in its fields A and B. -/
theorem encode_command_of_holds {row : OpcodeRow} (hrow : row ∈ opcodeTable) {w : CommandWord}
    (h : row.holds w = true) : encode (row.mnemonic.command (aField w) (bField w)) = w := by
  obtain ⟨hop, ha, hb, hrsv⟩ := (OpcodeRow.holds_iff row w).1 h
  obtain ⟨⟨hopMask, hopMatch⟩, hrsvMask, hrsvMatch⟩ := opcodeTable_op_and_rsv hrow
  obtain ⟨ha, hb⟩ := operands_of_masked hrow ha hb
  rw [hopMask, byte_and_255, hopMatch] at hop
  rw [hrsvMask, byte_and_255, hrsvMatch] at hrsv
  apply word_ext
  · rw [opField_encode, Mnemonic.mnemonic_command, hop]
  · rw [aField_encode, ← ha]
  · rw [bField_encode, ← hb]
  · rw [rsvField_encode, hrsv]

/-- A word is of a row exactly when it decodes to a command of the row's mnemonic (R73). -/
theorem holds_iff_decode {row : OpcodeRow} (hrow : row ∈ opcodeTable) (w : CommandWord) :
    row.holds w = true ↔ ∃ i, decode w = .command i ∧ i.mnemonic = row.mnemonic := by
  constructor
  · intro h
    exact ⟨_, decode_eq_command_iff.2 (encode_command_of_holds hrow h), Mnemonic.mnemonic_command _ _ _⟩
  · rintro ⟨i, hi, hm⟩
    rw [← encode_of_decode hi, holds_encode_iff i hrow, hm]

theorem OpcodeRow.holds_eq_true (row : OpcodeRow) (w : CommandWord) :
    row.holds w = true ↔ w &&& row.mask = row.matchBits := beq_iff_eq

/-- Every mnemonic has a row. -/
theorem exists_row (m : Mnemonic) : ∃ row ∈ opcodeTable, row.mnemonic = m := by
  cases m <;> decide

/-- Every row is of another mnemonic. -/
theorem opcodeTable_pairwise_mnemonic_ne : opcodeTable.Pairwise fun r q => r.mnemonic ≠ q.mnemonic := by decide

/-- No word is of two rows: it would decode to commands of both mnemonics (R73). -/
theorem opcodeTable_pairwise_disjoint :
    opcodeTable.Pairwise fun r q => ∀ w : CommandWord, ¬(r.holds w = true ∧ q.holds w = true) := by
  refine opcodeTable_pairwise_mnemonic_ne.imp_of_mem fun {r q} hr hq hne w ⟨hrw, hqw⟩ => hne ?_
  obtain ⟨i, hi, hir⟩ := (holds_iff_decode hr w).1 hrw
  obtain ⟨j, hj, hjq⟩ := (holds_iff_decode hq w).1 hqw
  have hij : i = j := Decoded.command.inj (hi.symm.trans hj)
  rw [← hir, ← hjq, hij]

/-- The opcode range is checked before any other field (R75). -/
theorem decode_of_le_opField {w : CommandWord} (h : 0x08 ≤ (opField w).toNat) :
    decode w = .illegal .illegalOpcode :=
  if_pos h

/-- Settles O3: a row's words are the encodings of its command, whose fields the decoder reads. -/
theorem opcodeMapRowsAreTheCommands : Obligations.OpcodeMapRowsAreTheCommands := by
  unfold Obligations.OpcodeMapRowsAreTheCommands
  simp only [← OpcodeRow.holds_eq_true]
  refine ⟨fun w row hrow => holds_iff_decode hrow w, opcodeTable_pairwise_disjoint, fun w i h => ?_,
    fun w h => decode_of_le_opField h⟩
  obtain ⟨hop, ha, hb, -⟩ := fields_of_decode h
  exact ⟨hop.symm, ha.symm, hb.symm⟩

theorem noOperands_eq_illegal {a b : Byte} {i : Instr} {c : ErrorCause} (h : noOperands a b i = .illegal c) :
    c = .reservedNonzero := by
  unfold noOperands at h
  split at h <;> cases h
  rfl

/-- Below 0x08 an illegal word has the cause RESERVED_NONZERO (R74, R76). -/
theorem cause_of_opField_lt {w : CommandWord} {c : ErrorCause} (hop : (opField w).toNat < 0x08)
    (h : decode w = .illegal c) : c = .reservedNonzero := by
  rw [decode, if_neg (by omega)] at h
  split at h
  · cases h; rfl
  split at h
  case h_1 | h_5 | h_6 | h_7 | h_8 => exact noOperands_eq_illegal h
  case h_2 | h_4 => cases h
  case h_3 => split at h <;> cases h; rfl
  case h_9 => simp only [imp_false] at *; omega

/-- A word below 0x08 that is of no row is illegal with cause RESERVED_NONZERO: a command's word would be of its
mnemonic's row (R74). -/
theorem decode_of_no_row {w : CommandWord} (hop : (opField w).toNat < 0x08)
    (hrows : ∀ row ∈ opcodeTable, row.holds w ≠ true) : decode w = .illegal .reservedNonzero := by
  cases h : decode w with
  | illegal c => rw [cause_of_opField_lt hop h]
  | command i =>
    obtain ⟨row, hrow, hm⟩ := exists_row i.mnemonic
    exact absurd ((holds_iff_decode hrow w).2 ⟨i, h, hm.symm⟩) (hrows row hrow)

end Sys2Proof

namespace Sys2Proof.Machine

/-- Issuing an illegal word with `ERR = 0` enters the decoder's error and does nothing else (R74, R75). -/
theorem issueCommand_of_illegal {w : CommandWord} {c : ErrorCause} (h : decode w = .illegal c) {s : State}
    (herr : s.err = false) : issueCommand w s = .next (raiseError c s) := by
  rw [issueCommand_eq, perform_of_error herr (issueBody_of_illegal h s)]

/-- Settles O4: the decoder asks for the opcode range first, and an illegal word enters its error. -/
theorem illegalOpcodeRaises : Obligations.IllegalOpcodeRaises := by
  intro w s hop
  have hillegal : decode w = .illegal .illegalOpcode := decode_of_le_opField hop
  exact ⟨hillegal, issueCommand_of_illegal hillegal⟩

/-- Settles O5: a word of no row decodes to no command, and an illegal word enters its error. -/
theorem reservedNonzeroRaises : Obligations.ReservedNonzeroRaises := by
  intro w s hop hrows
  have hillegal : decode w = .illegal .reservedNonzero :=
    decode_of_no_row hop fun row hrow h => hrows row hrow ((row.holds_eq_true w).1 h)
  exact ⟨hillegal, issueCommand_of_illegal hillegal⟩

end Sys2Proof.Machine
end

section
/-! SUPPORT. The assembler's two checks (spec/30_encoding.md R78): what passes them is exactly the assembly form of a
command. -/

namespace Sys2Proof

/-- The two checks, said of the operands (R78). -/
theorem AsmCommand.wellFormed_iff (c : AsmCommand) :
    c.wellFormed = true ↔ c.operands.length = c.mnemonic.operandCount ∧ ∀ v ∈ c.operands, v < 256 := by
  simp [AsmCommand.wellFormed, AsmCommand.countOk, AsmCommand.rangeOk]

/-- What passes the checks is the assembly form of a command: as many operands as it takes, each a byte's value. -/
theorem AsmCommand.exists_source {c : AsmCommand} (h : c.wellFormed = true) : ∃ i : Instr, i.source = c := by
  obtain ⟨m, operands⟩ := c
  obtain ⟨hcount, hrange⟩ := (AsmCommand.wellFormed_iff _).1 h
  have hmod : ∀ v ∈ operands, v % 256 = v := fun v hv => Nat.mod_eq_of_lt (hrange v hv)
  have hnil : m.operandCount = 0 → operands = [] := fun hm => List.length_eq_zero_iff.1 (hcount.trans hm)
  cases m with
  | nop => exact ⟨.nop, by rw [hnil rfl]; rfl⟩
  | permute => exact ⟨.permute, by rw [hnil rfl]; rfl⟩
  | finalize => exact ⟨.finalize, by rw [hnil rfl]; rfl⟩
  | save => exact ⟨.save, by rw [hnil rfl]; rfl⟩
  | restore => exact ⟨.restore, by rw [hnil rfl]; rfl⟩
  | absorb =>
    obtain ⟨byte, rfl⟩ := List.length_eq_one_iff.1 hcount
    exact ⟨.absorb (BitVec.ofNat 8 byte), by simp [Instr.source, hmod]⟩
  | init =>
    obtain ⟨rate, delim, rfl⟩ := List.length_eq_two.1 hcount
    exact ⟨.init (BitVec.ofNat 8 rate) (BitVec.ofNat 8 delim), by simp [Instr.source, hmod]⟩
  | xorb =>
    obtain ⟨index, value, rfl⟩ := List.length_eq_two.1 hcount
    exact ⟨.xorb (BitVec.ofNat 8 index) (BitVec.ofNat 8 value), by simp [Instr.source, hmod]⟩

/-- The assembler accepts a command's assembly form, as that command. -/
@[simp] theorem Instr.toInstr_source (i : Instr) : i.source.toInstr = some i := by
  rw [AsmCommand.toInstr, if_pos i.wellFormed]
  cases i <;> simp [Instr.source]

/-- A written command is refused exactly when a check fails: any other is the assembly form of a command. -/
theorem AsmCommand.toInstr_eq_none_iff (c : AsmCommand) : c.toInstr = none ↔ ¬c.wellFormed = true := by
  constructor
  · intro hnone hwf
    obtain ⟨i, rfl⟩ := AsmCommand.exists_source hwf
    simp at hnone
  · exact fun h => if_neg h

/-- Settles O6: what passes the checks is a command's assembly form, and a form is accepted as its command. -/
theorem assemblerChecksCountAndRange : Obligations.AssemblerChecksCountAndRange := by
  refine ⟨fun c => ?_, Instr.toInstr_source, Instr.toInstr_source (.init 8 1), Instr.toInstr_source (.xorb 200 1)⟩
  rw [c.toInstr_eq_none_iff, c.wellFormed_iff, not_and_or]
  simp

end Sys2Proof
end

section
/-! SUPPORT. The step mappings of the permutation lane by lane (spec/40_permutation.md R103 to R108), and `f` as its 24
rounds (R109). Later proofs cite these and unfold no step mapping. -/

namespace Sys2Proof.Machine

@[simp] theorem laneAt_theta (a : LaneFile) (x y : Fin 5) :
    laneAt (theta a) x y = laneAt a x y ^^^ thetaOffset a x := laneAt_ofGrid _ x y

@[simp] theorem laneAt_rho (a : LaneFile) (x y : Fin 5) :
    laneAt (rho a) x y = rotl (laneAt a x y) (rhoOffset x y) := laneAt_ofGrid _ x y

@[simp] theorem laneAt_piStep (a : LaneFile) (x y : Fin 5) :
    laneAt (piStep a) x y = laneAt a (x + 3 * y) x := laneAt_ofGrid _ x y

@[simp] theorem laneAt_chi (a : LaneFile) (x y : Fin 5) :
    laneAt (chi a) x y = laneAt a x y ^^^ (~~~laneAt a (x + 1) y &&& laneAt a (x + 2) y) := laneAt_ofGrid _ x y

theorem laneAt_iota (i : Fin 24) (a : LaneFile) (x y : Fin 5) :
    laneAt (iota i a) x y = if x = 0 ∧ y = 0 then laneAt a x y ^^^ roundConstant i else laneAt a x y :=
  laneAt_ofGrid _ x y

/-- Every rotation offset is below the lane width (R112). -/
theorem rhoOffset_lt (x y : Fin 5) : rhoOffset x y < 64 := by revert x y; decide

/-- `x - 1` is `x + 4` modulo 5, the form in which the model writes the left neighbour (R9). -/
theorem coordinate_sub_one (x : Fin 5) : x - 1 = x + 4 := by revert x; decide

/-- π moves the lane at (x,y) to (y, 2x + 3y) (R105). -/
theorem laneAt_piStep_target (a : LaneFile) (x y : Fin 5) : laneAt (piStep a) y (2 * x + 3 * y) = laneAt a x y := by
  have hsource : y + 3 * (2 * x + 3 * y) = x := by revert x y; decide
  rw [laneAt_piStep, hsource]

/-- Rotating by an offset of R104 is the library's rotation. -/
theorem laneAt_rho_rotateLeft (a : LaneFile) (x y : Fin 5) :
    laneAt (rho a) x y = (laneAt a x y).rotateLeft (rhoOffset x y) := by
  rw [laneAt_rho, rotl_eq_rotateLeft _ (rhoOffset_lt x y)]

/-- The lane indices of R105: lane `x + 5y` is taken from the lane at (x + 3y, x). -/
theorem piStep_source_index (x y : Fin 5) :
    [0, 6, 12, 18, 24, 3, 9, 10, 16, 22, 1, 7, 13, 19, 20, 4, 5, 11, 17, 23, 2, 8, 14, 15, 21].getD
      (x.val + 5 * y.val) 0 = (x + 3 * y).val + 5 * x.val := by
  revert x y; decide

/-- The model's offsets are those of R104, written as a list. -/
theorem rhoOffset_eq_getD (x y : Fin 5) :
    rhoOffset x y =
      [0, 1, 62, 28, 27, 36, 44, 6, 55, 20, 3, 10, 43, 25, 39, 41, 45, 15, 21, 8, 18, 2, 61, 56, 14].getD
        (x.val + 5 * y.val) 0 := by
  revert x y; decide

/-- Settles O33: each mapping by its own lane equation, and the two tables compared entry by entry. -/
theorem stepMappingsLaneByLane : Obligations.StepMappingsLaneByLane := by
  intro a x y
  refine ⟨?_, ?_, laneAt_piStep_target a x y, ?_, laneAt_chi a x y⟩
  · rw [laneAt_theta, thetaOffset, rotl_eq_rotateLeft _ (by decide), coordinate_sub_one]
    rfl
  · rw [laneAt_rho_rotateLeft, rhoOffset_eq_getD]
  · rw [← laneAt_eq_laneOf, laneAt_piStep, laneAt_eq_laneOf, piStep_source_index]

/-- Settles O32: ι writes lane (0,0) and no other. -/
theorem iotaChangesLaneZeroOnly : Obligations.IotaChangesLaneZeroOnly := by
  intro a i x y
  rw [laneAt_iota]
  split
  · next h => rw [h.1, h.2]
  · rfl

/-- Settles O53: the table is compared with R108's entry by entry, and ι uses the table (O32). -/
theorem iotaUsesTheTableOfConstants : Obligations.IotaUsesTheTableOfConstants := by
  intro a p hp
  have hconstant : roundConstant p.1 = p.2 := by
    refine List.forall_iff_forall_mem.1 (?_ : List.Forall (fun q => roundConstant q.1 = q.2) _) p hp
    decide
  exact ⟨hconstant, hconstant ▸ iotaChangesLaneZeroOnly a p.1⟩

/-- The lane file after the first `n` rounds, `A(n)` (R109). -/
def afterRounds (a : LaneFile) (n : Nat) : LaneFile := ((List.finRange 24).take n).foldl keccakRound a

theorem afterRounds_succ (a : LaneFile) (i : Fin 24) :
    afterRounds a (i.val + 1) = keccakRound (afterRounds a i.val) i := by
  have hlength : i.val < (List.finRange 24).length := by simp
  rw [afterRounds, List.take_succ_eq_append_getElem hlength, List.foldl_concat, List.getElem_finRange]
  rfl

/-- Settles O54: `A(n)` is the state after the first n rounds, and `f` is all 24 of them. -/
theorem permutationIsTwentyFourRounds : Obligations.PermutationIsTwentyFourRounds := by
  intro a
  refine ⟨afterRounds a, rfl, afterRounds_succ a, ?_⟩
  rw [afterRounds, List.take_of_length_le (by simp)]
  rfl

/-- θ adds nothing where both neighbouring columns have parity 0 (R112). -/
theorem thetaOffset_eq_zero {a : LaneFile} (h : ∀ x, columnParity a x = 0) (x : Fin 5) : thetaOffset a x = 0 := by
  rw [thetaOffset, h, h]
  decide

/-- θ is the identity where every column parity is 0 (R112). -/
theorem theta_eq_self {a : LaneFile} (h : ∀ x, columnParity a x = 0) : theta a = a :=
  laneFile_ext_grid fun x y => by simp [thetaOffset_eq_zero h]

/-- A lane of zeros stays so under rotation. -/
@[simp] theorem rotl_zero (n : Nat) : rotl 0 n = 0 := by
  simp [rotl]

/-- ρ keeps lane (0,0), whose offset is 0 (R112). -/
theorem laneAt_rho_zero (a : LaneFile) : laneAt (rho a) 0 0 = laneAt a 0 0 := by
  have hoffset : rhoOffset 0 0 = 0 := by decide
  rw [laneAt_rho, hoffset, rotl, if_pos rfl]

/-- χ keeps a row of zeros (R112). -/
theorem laneAt_chi_of_zero_row {a : LaneFile} {y : Fin 5} (h : ∀ x, laneAt a x y = 0) (x : Fin 5) :
    laneAt (chi a) x y = 0 := by
  rw [laneAt_chi, h, h, h]
  decide

/-- χ keeps a row of ones (R112). -/
theorem laneAt_chi_of_ones_row {a : LaneFile} {y : Fin 5} (h : ∀ x, laneAt a x y = 0xFFFFFFFFFFFFFFFF) (x : Fin 5) :
    laneAt (chi a) x y = 0xFFFFFFFFFFFFFFFF := by
  rw [laneAt_chi, h, h, h]
  decide

/-- θ, ρ, π and χ keep the zero state (R112). -/
theorem laneAt_chi_piStep_rho_theta_of_zero {a : LaneFile} (h : ∀ x y, laneAt a x y = 0) (x y : Fin 5) :
    laneAt (chi (piStep (rho (theta a)))) x y = 0 := by
  have htheta : theta a = a := theta_eq_self fun x => by simp [columnParity, h]
  exact laneAt_chi_of_zero_row (fun x => by rw [laneAt_piStep, laneAt_rho, htheta, h, rotl_zero]) x

/-- Round 0 on the zero state leaves the first constant in lane (0,0) (R112). -/
theorem laneAt_keccakRound_zero {a : LaneFile} (h : ∀ x y, laneAt a x y = 0) (x y : Fin 5) :
    laneAt (keccakRound a 0) x y = if x = 0 ∧ y = 0 then 0x0000000000000001 else 0 := by
  rw [keccakRound, laneAt_iota, laneAt_chi_piStep_rho_theta_of_zero h]
  rfl

/-- Settles O34: each corner case by the lane equations of its step. -/
theorem permutationCornerCases : Obligations.PermutationCornerCases :=
  ⟨fun _ => theta_eq_self, fun a => ⟨laneAt_rho_zero a, laneAt_piStep a 0 0⟩, fun _ _ => laneAt_chi_of_zero_row,
    fun _ _ => laneAt_chi_of_ones_row, rhoOffset_lt, fun _ => laneAt_keccakRound_zero⟩

end Sys2Proof.Machine
end

section
/-! SUPPORT. The command `PERMUTE`: its one word and its effect (spec/40_permutation.md R111). -/

namespace Sys2Proof.Machine

/-- `PERMUTE` is the only command with opcode 0x04 (R73). -/
theorem eq_permute_of_opcode {i : Instr} (h : i.mnemonic.opcode = 0x04) : i = .permute := by
  revert h
  cases i <;> simp [Instr.mnemonic, Instr.source, Mnemonic.opcode]

theorem bodyOf_permute (s : State) : bodyOf .permute s = .ok { s with session := s.session.permute } := rfl

/-- A word with `PERMUTE`'s opcode and another field set decodes to no command (R74). -/
theorem decode_of_opcode_permute {w : CommandWord} (hop : opField w = 0x04) (hw : w ≠ 0x00000004) :
    decode w = .illegal .reservedNonzero := by
  cases h : decode w with
  | illegal c => rw [cause_of_opField_lt (by rw [hop]; decide) h]
  | command i =>
    obtain ⟨hopcode, -⟩ := fields_of_decode h
    obtain rfl := eq_permute_of_opcode (hopcode.symm.trans hop)
    exact absurd (encode_of_decode h).symm hw

/-- Settles O16: `PERMUTE` has one word, and runs in the shared frame of a command with no check of its own. -/
theorem permuteAppliesF : Obligations.PermuteAppliesF := by
  refine ⟨fun w => ?_, fun w => decode_of_opcode_permute, fun s herr => ?_,
    fun s herr => exec_of_ok herr (bodyOf_permute s)⟩
  · have hword : encode .permute = 0x00000004 := by decide
    rw [decode_eq_command_iff, hword, eq_comm]
  · rw [exec_eq, perform_of_err _ herr]

end Sys2Proof.Machine
end

section
/-! SUPPORT. The loop form of R110 is the step-by-step form: its θ and χ are the same lane by lane, its walk over the
24 other lanes is ρ and then π, and so each of its rounds is a round. -/

namespace Sys2Proof.Machine

/-- Lane (x,y) of a lane file written by lane index. -/
@[simp] theorem laneAt_ofFn (g : Fin 25 → Lane) (x y : Fin 5) :
    laneAt (Vector.ofFn g) x y = g ⟨x.val + 5 * y.val, by omega⟩ := by
  simp [laneAt]

/-- The loop form's parity of column x (R110). -/
theorem loopParity_eq_columnParity (a : LaneFile) (x : Fin 5) : loopParity a x.val = columnParity a x := by
  simp [loopParity, columnParity, laneAt_eq_laneOf]

/-- The loop form's θ (R110, R103). -/
theorem loopTheta_eq_theta (a : LaneFile) : loopTheta a = theta a := by
  apply laneFile_ext_grid
  intro x y
  have hleft : (x.val + 5 * y.val + 4) % 5 = (x + 4).val := by revert x y; decide
  have hright : (x.val + 5 * y.val + 1) % 5 = (x + 1).val := by revert x y; decide
  rw [laneAt_theta, thetaOffset, loopTheta, laneAt_ofFn, hleft, hright, loopParity_eq_columnParity,
    loopParity_eq_columnParity, laneAt_eq_laneOf]

/-- The loop form's χ (R110, R106). -/
theorem loopChi_eq_chi (a : LaneFile) : loopChi a = chi a := by
  apply laneFile_ext_grid
  intro x y
  have hnext : 5 * ((x.val + 5 * y.val) / 5) + (x.val + 5 * y.val + 1) % 5 = (x + 1).val + 5 * y.val := by
    revert x y; decide
  have hnext2 : 5 * ((x.val + 5 * y.val) / 5) + (x.val + 5 * y.val + 2) % 5 = (x + 2).val + 5 * y.val := by
    revert x y; decide
  rw [laneAt_chi, loopChi, laneAt_ofFn, hnext, hnext2]
  simp only [laneAt_eq_laneOf]

/-- Reading a lane after one write by index. -/
theorem laneOf_setIfInBounds (a : LaneFile) {t : Nat} (ht : t < 25) (v : Lane) (L : Nat) :
    laneOf (a.setIfInBounds t v) L = if t = L then v else laneOf a L := by
  rw [laneOf, Vector.getElem?_setIfInBounds, if_pos ht]
  split <;> rfl

/-- A walk leaves the lanes it does not visit. -/
theorem laneOf_walk_of_not_visited {L : Nat} (l : List (Nat × Nat)) (st : LaneFile × Lane)
    (hin : ∀ p ∈ l, p.1 < 25) (h : L ∉ l.map Prod.fst) : laneOf (l.foldl walkStep st).1 L = laneOf st.1 L := by
  induction l generalizing st with
  | nil => rfl
  | cons p l ih =>
    obtain ⟨hne, hrest⟩ := List.ne_and_not_mem_of_not_mem_cons h
    obtain ⟨hp, hl⟩ := List.forall_mem_cons.1 hin
    rw [List.foldl_cons, ih _ hl hrest, walkStep, laneOf_setIfInBounds _ hp, if_neg (Ne.symm hne)]

/-- A walk that visits no lane twice moves to each lane it visits the old lane of the stop before, rotated: `src` stands
before the first stop, and `a` is the lane file as it was (R110). -/
theorem laneOf_walk_of_visited {a : LaneFile} (l : List (Nat × Nat)) {src : Nat} {st : LaneFile × Lane}
    (hin : ∀ p ∈ l, p.1 < 25) (hnodup : (l.map Prod.fst).Nodup) (hlast : st.2 = laneOf a src)
    (hold : ∀ p ∈ l, laneOf st.1 p.1 = laneOf a p.1) :
    ∀ m ∈ (src :: l.map Prod.fst).zip l,
      laneOf (l.foldl walkStep st).1 m.2.1 = rotl (laneOf a m.1) m.2.2 := by
  induction l generalizing src st with
  | nil => simp
  | cons p l ih =>
    obtain ⟨hfresh, hnodup⟩ := List.nodup_cons.1 hnodup
    obtain ⟨hp, hin⟩ := List.forall_mem_cons.1 hin
    obtain ⟨holdp, hold⟩ := List.forall_mem_cons.1 hold
    rw [List.map_cons, List.zip_cons_cons, List.foldl_cons, List.forall_mem_cons]
    constructor
    · rw [laneOf_walk_of_not_visited l _ hin hfresh, walkStep, laneOf_setIfInBounds _ hp, if_pos rfl, hlast]
    · refine ih hin hnodup holdp fun q hq => ?_
      have hne : p.1 ≠ q.1 := fun h => hfresh (h ▸ List.mem_map_of_mem hq)
      rw [walkStep, laneOf_setIfInBounds _ hp, if_neg hne, hold q hq]

/-- The stops of R110's walk with their rotations. -/
def walk : List (Nat × Nat) := piWalk.zip rhoWalk

theorem loopRhoPi_eq_walk (a : LaneFile) : loopRhoPi a = (walk.foldl walkStep (a, laneOf a 1)).1 := rfl

/-- The walk visits 24 different lanes, and not lane 0. -/
theorem walk_stops : (∀ p ∈ walk, p.1 < 25) ∧ (walk.map Prod.fst).Nodup ∧ 0 ∉ walk.map Prod.fst := by decide

/-- Each move of the walk is a move of ρ and then π: to lane (x,y) from (x + 3y, x), rotated by the offset there. -/
theorem walk_moves (x y : Fin 5) (h : ¬(x = 0 ∧ y = 0)) :
    ((x + 3 * y).val + 5 * x.val, x.val + 5 * y.val, rhoOffset (x + 3 * y) x) ∈ (1 :: walk.map Prod.fst).zip walk := by
  revert x y; decide

/-- The loop form's walk is ρ and then π (R110, R104, R105). -/
theorem loopRhoPi_eq_piStep_rho (a : LaneFile) : loopRhoPi a = piStep (rho a) := by
  obtain ⟨hin, hnodup, hzero⟩ := walk_stops
  apply laneFile_ext_grid
  intro x y
  rw [loopRhoPi_eq_walk, laneAt_piStep, laneAt_rho, laneAt_eq_laneOf, laneAt_eq_laneOf]
  by_cases h : x = 0 ∧ y = 0
  · obtain ⟨rfl, rfl⟩ := h
    exact laneOf_walk_of_not_visited walk _ hin hzero
  · exact laneOf_walk_of_visited walk hin hnodup rfl (fun _ _ => rfl) _ (walk_moves x y h)

/-- The loop form's last write is ι (R110, R107). -/
theorem setIfInBounds_eq_iota (a : LaneFile) (i : Fin 24) :
    a.setIfInBounds 0 (laneOf a 0 ^^^ roundConstant i) = iota i a := by
  apply laneFile_ext_grid
  intro x y
  have hzero : 0 = x.val + 5 * y.val ↔ x = 0 ∧ y = 0 := by revert x y; decide
  rw [iotaChangesLaneZeroOnly, laneAt_eq_laneOf, laneOf_setIfInBounds _ (by decide), laneAt_eq_laneOf a x y]
  simp only [hzero]
  rfl

/-- A round of the loop form is a round (R110, R102). -/
theorem loopRound_eq_keccakRound : loopRound = keccakRound := by
  funext a i
  rw [loopRound, loopTheta_eq_theta, loopRhoPi_eq_piStep_rho, loopChi_eq_chi, setIfInBounds_eq_iota, keccakRound]

/-- Settles O35: the two forms fold the same rounds. -/
theorem loopFormEqualsStepForm : Obligations.LoopFormEqualsStepForm := by
  intro a
  rw [loopF, loopRound_eq_keccakRound, keccakF]

end Sys2Proof.Machine
end

section
/-! SUPPORT. Every step mapping is injective on lane files, hence `f` is a bijection on this finite set (R112). θ and χ
are inverted bit by bit: θ through the column parities, whose mixing has an inverse, and χ row by row. -/

namespace Sys2Proof.Machine

/-- Bit `z` of lane (x,y). -/
def bitAt (a : LaneFile) (x y : Fin 5) (z : Fin 64) : Bool := (laneAt a x y).getLsbD z.val

/-- Lanes are equal when their bits are. -/
theorem lane_ext_bits {v w : Lane} (h : ∀ z : Fin 64, v.getLsbD z.val = w.getLsbD z.val) : v = w :=
  BitVec.eq_of_getLsbD_eq fun n hn => h ⟨n, hn⟩

/-- Lane files are equal when their bits are. -/
theorem laneFile_ext_bits {a b : LaneFile} (h : ∀ x y z, bitAt a x y z = bitAt b x y z) : a = b :=
  laneFile_ext_grid fun x y => lane_ext_bits (h x y)

/-- Rotating left by `n` moves bit `z - n` to bit `z`, modulo 64 (R9). -/
theorem getLsbD_rotl (v : Lane) (n z : Fin 64) : (rotl v n.val).getLsbD z.val = v.getLsbD (z - n).val := by
  have hmod : n.val % 64 = n.val := Nat.mod_eq_of_lt n.isLt
  rw [rotl_eq_rotateLeft v n.isLt, BitVec.getLsbD_rotateLeft, hmod, Fin.sub_def]
  by_cases h : z.val < n.val
  · have hwrap : (64 - n.val + z.val) % 64 = 64 - n.val + z.val := Nat.mod_eq_of_lt (by omega)
    simp [h, hwrap]
  · have hwrap : (64 - n.val + z.val) % 64 = z.val - n.val := by omega
    simp [h, hwrap]

/-- A rotation loses no bit. -/
theorem rotl_injective {n : Nat} (hn : n < 64) : Function.Injective (rotl · n) := by
  intro v w h
  refine lane_ext_bits fun z => ?_
  have hbit := congrArg (fun u : Lane => u.getLsbD (z + ⟨n, hn⟩).val) h
  simpa only [getLsbD_rotl _ ⟨n, hn⟩, add_sub_cancel_right] using hbit

theorem rho_injective : Function.Injective rho := by
  intro a b h
  refine laneFile_ext_grid fun x y => rotl_injective (rhoOffset_lt x y) ?_
  simpa only [laneAt_rho] using congrArg (laneAt · x y) h

theorem piStep_injective : Function.Injective piStep := by
  intro a b h
  refine laneFile_ext_grid fun x y => ?_
  rw [← laneAt_piStep_target a, h, laneAt_piStep_target]

/-- ι XORs the same constant twice into lane (0,0): it is its own inverse. -/
theorem iota_involutive (i : Fin 24) : Function.Involutive (iota i) := by
  intro a
  refine laneFile_ext_grid fun x y => ?_
  rw [laneAt_iota, laneAt_iota]
  split
  · rw [BitVec.xor_assoc, BitVec.xor_self, BitVec.xor_zero]
  · rfl

/-- χ on the five bits of a row (R106). -/
def chiRow (r : Fin 5 → Bool) (x : Fin 5) : Bool := r x ^^ (!r (x + 1) && r (x + 2))

/-- The inverse of χ on a row. -/
def chiRowInverse (r : Fin 5 → Bool) (x : Fin 5) : Bool :=
  r x ^^ (!r (x + 1) && (r (x + 2) ^^ (!r (x + 3) && r (x + 4))))

theorem chiRowInverse_chiRow : Function.LeftInverse chiRowInverse chiRow := by
  unfold Function.LeftInverse
  decide

/-- χ acts on each row of bits by itself (R106). -/
theorem bitAt_chi (a : LaneFile) (x y : Fin 5) (z : Fin 64) :
    bitAt (chi a) x y z = chiRow (fun x => bitAt a x y z) x := by
  simp [bitAt, chiRow]

theorem chi_injective : Function.Injective chi := by
  intro a b h
  refine laneFile_ext_bits fun x y z => ?_
  have hrow : chiRow (fun x => bitAt a x y z) = chiRow (fun x => bitAt b x y z) := by
    funext x
    rw [← bitAt_chi, ← bitAt_chi, h]
  exact congrFun (chiRowInverse_chiRow.injective hrow) x

/-- The bits of the five column parities (R103). -/
def parityPlane (a : LaneFile) (x : Fin 5) (z : Fin 64) : Bool := (columnParity a x).getLsbD z.val

/-- A plane of bits XORed with itself shifted by `s` columns, and shifted by `s` columns the other way and `n` bits.
θ mixes the column parities so, with s = 1 and n = 1 (R103). -/
def mixPlane (s : Fin 5) (n : Fin 64) (p : Fin 5 → Fin 64 → Bool) (x : Fin 5) (z : Fin 64) : Bool :=
  p x z ^^ (p (x - s) z ^^ p (x + s) (z - n))

/-- The square of a sum of three bits modulo 2 has no mixed terms: `l` and `r` are the two shifts of `a`. -/
theorem xor_cross_terms (a l r ll lr rr : Bool) :
    ((a ^^ (l ^^ r)) ^^ ((l ^^ (ll ^^ lr)) ^^ (r ^^ (lr ^^ rr)))) = (a ^^ (ll ^^ rr)) := by
  revert a l r ll lr rr; decide

/-- Mixing twice doubles both shifts: the cross terms come in pairs and cancel. -/
theorem mixPlane_comp_self (s : Fin 5) (n : Fin 64) : mixPlane s n ∘ mixPlane s n = mixPlane (s + s) (n + n) := by
  funext p x z
  simp only [mixPlane, Function.comp_apply, add_sub_cancel_right, sub_add_cancel, sub_add_eq_sub_sub, add_assoc]
  exact xor_cross_terms _ _ _ _ _ _

theorem mixPlane_injective_of_double {s : Fin 5} {n : Fin 64}
    (h : Function.Injective (mixPlane (s + s) (n + n))) : Function.Injective (mixPlane s n) := by
  rw [← mixPlane_comp_self] at h
  exact h.of_comp

/-- Without a shift of bits, mixing by 3 columns undoes mixing by 4. -/
theorem mixPlane_three_four : Function.LeftInverse (mixPlane 3 0) (mixPlane 4 0) := by
  intro p
  funext x z
  have hrow : ∀ (r : Fin 5 → Bool) (x : Fin 5),
      ((r x ^^ (r (x - 4) ^^ r (x + 4))) ^^ ((r (x - 3) ^^ (r (x - 3 - 4) ^^ r (x - 3 + 4))) ^^
        (r (x + 3) ^^ (r (x + 3 - 4) ^^ r (x + 3 + 4))))) = r x := by decide
  simpa only [mixPlane, sub_zero] using hrow (fun x => p x z) x

/-- Six doublings take the shifts of θ to 4 columns and 64 bits, which is no shift of bits. -/
theorem mixPlane_one_one_injective : Function.Injective (mixPlane 1 1) := by
  have hsixth : Function.Injective (mixPlane 4 0) := mixPlane_three_four.injective
  exact mixPlane_injective_of_double (mixPlane_injective_of_double (mixPlane_injective_of_double
    (mixPlane_injective_of_double (mixPlane_injective_of_double (mixPlane_injective_of_double hsixth)))))

/-- θ XORs the column's offset five times into its parity, which is once. -/
theorem columnParity_theta (a : LaneFile) (x : Fin 5) :
    columnParity (theta a) x = columnParity a x ^^^ thetaOffset a x := by
  simp only [columnParity, laneAt_theta]
  generalize thetaOffset a x = d
  have hfive : d ^^^ d ^^^ d ^^^ d ^^^ d = d := by simp
  calc
    _ = laneAt a x 0 ^^^ laneAt a x 1 ^^^ laneAt a x 2 ^^^ laneAt a x 3 ^^^ laneAt a x 4 ^^^
          (d ^^^ d ^^^ d ^^^ d ^^^ d) := by ac_rfl
    _ = _ := by rw [hfive]

/-- θ mixes the plane of column parities (R103). -/
theorem parityPlane_theta (a : LaneFile) : parityPlane (theta a) = mixPlane 1 1 (parityPlane a) := by
  funext x z
  have hrot : (rotl (columnParity a (x + 1)) 1).getLsbD z.val = parityPlane a (x + 1) (z - 1) := getLsbD_rotl _ 1 z
  rw [mixPlane, ← hrot, coordinate_sub_one]
  simp only [parityPlane, columnParity_theta, thetaOffset, BitVec.getLsbD_xor]

theorem theta_injective : Function.Injective theta := by
  intro a b h
  have hplane : parityPlane a = parityPlane b := by
    apply mixPlane_one_one_injective
    rw [← parityPlane_theta, ← parityPlane_theta, h]
  have hparity : columnParity a = columnParity b :=
    funext fun x => lane_ext_bits (congrFun (congrFun hplane x))
  refine laneFile_ext_grid fun x y => ?_
  have hlane := congrArg (laneAt · x y) h
  simp only [laneAt_theta, thetaOffset, hparity] at hlane
  exact (BitVec.xor_left_inj _).1 hlane

/-- Every round is injective: its five steps are. -/
theorem keccakRound_injective (i : Fin 24) : Function.Injective (keccakRound · i) :=
  (iota_involutive i).injective.comp
    (chi_injective.comp (piStep_injective.comp (rho_injective.comp theta_injective)))

/-- A fold of injective functions is injective. -/
theorem foldl_injective {α β : Type} {g : β → α → β} (hg : ∀ i, Function.Injective (g · i)) (l : List α) :
    Function.Injective (l.foldl g) := by
  induction l with
  | nil => exact Function.injective_id
  | cons i l ih => exact ih.comp (hg i)

/-- There are finitely many lane files: a lane file is its 25 lanes. -/
theorem laneFile_finite : Finite LaneFile :=
  Finite.of_injective (fun a : LaneFile => laneAt a) fun _ _ h => laneFile_ext_grid fun x y => congrFun (congrFun h x) y

/-- Settles O36: an injective function of a finite set to itself is a bijection. -/
theorem permutationIsABijection : Obligations.PermutationIsABijection :=
  haveI := laneFile_finite
  Finite.injective_iff_bijective.1 (foldl_injective keccakRound_injective _)

end Sys2Proof.Machine
end

section
/-! SUPPORT. A command's word written as `{RSV, B, A, OP}` (spec/30_encoding.md R71, R72, R74, R80), and the words of a
command without operands. -/

namespace Sys2Proof

/-- The word of a command, field by field (R71, R80). -/
theorem encode_eq_append (i : Instr) : encode i = 0x00#8 ++ i.operandB ++ i.operandA ++ i.mnemonic.opcode := by
  obtain ⟨hop, ha, hb, hrsv⟩ := fields_append i.mnemonic.opcode i.operandA i.operandB 0x00#8
  apply word_ext
  · rw [opField_encode, hop]
  · rw [aField_encode, ha]
  · rw [bField_encode, hb]
  · rw [rsvField_encode, hrsv, BitVec.ofNat_eq_ofNat]

/-- The one word that decodes to a command (R73, R76). -/
theorem decode_eq_command_iff_append (i : Instr) (w : CommandWord) :
    decode w = .command i ↔ w = 0x00#8 ++ i.operandB ++ i.operandA ++ i.mnemonic.opcode := by
  rw [decode_eq_command_iff, encode_eq_append, eq_comm]

/-- A word with the opcode of a command that shares it with no other, and with another field set, decodes to no command
(R74). -/
theorem decode_of_opcode {i : Instr} (hunique : ∀ j : Instr, j.mnemonic.opcode = i.mnemonic.opcode → j = i)
    {w : CommandWord} (hop : opField w = i.mnemonic.opcode) (hw : w ≠ encode i) :
    decode w = .illegal .reservedNonzero := by
  cases h : decode w with
  | illegal c =>
    have hrange : (opField w).toNat < 0x08 := by
      rw [hop]
      cases i.mnemonic <;> decide
    rw [cause_of_opField_lt hrange h]
  | command j =>
    obtain ⟨hopcode, -⟩ := fields_of_decode h
    obtain rfl := hunique j (hopcode.symm.trans hop)
    exact absurd (encode_of_decode h).symm hw

/-- `FINALIZE` is the only command with opcode 0x05 (R73). -/
theorem eq_finalize_of_opcode (i : Instr) (h : i.mnemonic.opcode = Instr.finalize.mnemonic.opcode) : i = .finalize := by
  revert h
  cases i <;> simp [Instr.mnemonic, Instr.source, Mnemonic.opcode]

end Sys2Proof
end

section
/-! SUPPORT. XORing bytes into the lane file (spec/41_sponge.md R144, R145, R148): one byte, the same byte twice, and
consecutive bytes. -/

namespace Sys2Proof.Machine

/-- A byte XORed in, as an XOR on every byte: of the value where it stands, and of 0 elsewhere. -/
theorem byteAt_xorByteAt_eq_xor (a : LaneFile) {i : Nat} (hi : i < 200) (j : Nat) (b : Byte) :
    byteAt (xorByteAt a i b) j = byteAt a j ^^^ (if j = i then b else 0) := by
  rw [byteAt_xorByteAt a hi]
  by_cases h : i = j
  · rw [if_pos h, if_pos h.symm]
  · rw [if_neg h, if_neg (Ne.symm h), BitVec.ofNat_eq_ofNat, BitVec.xor_zero]

theorem xorByteAt_zero (a : LaneFile) {i : Nat} (hi : i < 200) : xorByteAt a i 0 = a :=
  laneFile_ext_bytes fun j _ => by
    rw [byteAt_xorByteAt_eq_xor a hi, ite_self, BitVec.ofNat_eq_ofNat, BitVec.xor_zero]

/-- Two XORs of one byte are the XOR of both values (R145). -/
theorem xorByteAt_xorByteAt (a : LaneFile) {i : Nat} (hi : i < 200) (b c : Byte) :
    xorByteAt (xorByteAt a i b) i c = xorByteAt a i (b ^^^ c) :=
  laneFile_ext_bytes fun j _ => by
    rw [byteAt_xorByteAt _ hi, byteAt_xorByteAt a hi, byteAt_xorByteAt a hi]
    split <;> simp only [BitVec.xor_assoc]

theorem xorBytesAt_append (a : LaneFile) (o : Nat) (m n : List Byte) :
    xorBytesAt a o (m ++ n) = xorBytesAt (xorBytesAt a o m) (o + m.length) n := by
  induction m generalizing a o with
  | nil => rfl
  | cons b rest ih => rw [List.cons_append, xorBytesAt, ih, xorBytesAt, List.length_cons, Nat.add_assoc, Nat.add_comm 1]

theorem xorBytesAt_zeros (a : LaneFile) {o n : Nat} (h : o + n ≤ 200) : xorBytesAt a o (List.replicate n 0) = a := by
  induction n generalizing o with
  | zero => rfl
  | succ n ih => rw [List.replicate_succ, xorBytesAt, xorByteAt_zero a (by omega), ih (by omega)]

/-- Consecutive bytes XORed in, byte by byte. -/
theorem byteAt_xorBytesAt (a : LaneFile) {o : Nat} {bytes : List Byte} (h : o + bytes.length ≤ 200) (j : Nat) :
    byteAt (xorBytesAt a o bytes) j = byteAt a j ^^^ (if o ≤ j then bytes.getD (j - o) 0 else 0) := by
  induction bytes generalizing a o with
  | nil => simp [xorBytesAt]
  | cons b rest ih =>
    rw [List.length_cons] at h
    rw [xorBytesAt, ih _ (by omega), byteAt_xorByteAt_eq_xor _ (by omega)]
    rcases Nat.lt_trichotomy j o with hlt | heq | hgt
    · simp [show ¬o ≤ j by omega, show ¬o + 1 ≤ j by omega, show j ≠ o by omega]
    · simp [heq]
    · have hnext : j - o = j - (o + 1) + 1 := by omega
      simp [hnext, show o ≤ j by omega, show o + 1 ≤ j by omega, show j ≠ o by omega]

end Sys2Proof.Machine
end

section
/-! SUPPORT. The sponge controller's commands `INIT`, `ABSORB`, `XORB` and `FINALIZE` (spec/41_sponge.md R141 to R147)
and the untouched session (R154). -/

namespace Sys2Proof.Machine

/-- Settles O13: `INIT` with a legal rate leaves `newSession`, and its check refuses every other rate. -/
theorem initStartsANewSession : Obligations.InitStartsANewSession := by
  refine ⟨fun rate delim => decode_eq_command_iff_append (.init rate delim), fun rate delim s herr => ⟨?_, ?_⟩⟩
  · intro hrate
    have hlegal : rateLegal rate = true := (rateLegal_iff rate).2 hrate
    exact ⟨zeroLanes, fun i _ => byteAt_zeroLanes i, exec_of_ok herr (bodyOf_init_legal s hlegal)⟩
  · intro hrate
    have hillegal : rateLegal rate = false :=
      Bool.eq_false_iff.2 fun hlegal => by
        obtain ⟨hmin, hmax⟩ := (rateLegal_iff rate).1 hlegal
        omega
    exact exec_of_error herr (bodyOf_init_illegal s hillegal)

/-- An absorbed byte that leaves the block incomplete moves `OFFSET` on by one (R142). -/
theorem Session.fill_eq (ss : Session) (byte : Byte) :
    ss.fill byte = { ss with lanes := xorByteAt ss.lanes ss.offset.toNat byte, offset := ss.offset + 1 } := by
  have hoffset : BitVec.ofNat 8 (ss.offset.toNat + 1) = ss.offset + 1 := by
    rw [BitVec.ofNat_add, BitVec.ofNat_toNat, BitVec.setWidth_eq, BitVec.ofNat_eq_ofNat]
  rw [fill, hoffset]

/-- Settles O14: the byte goes into `S[OFFSET]`, and `f` runs exactly when it is the block's last. -/
theorem absorbXorsAtOffset : Obligations.AbsorbXorsAtOffset := by
  refine ⟨fun byte => decode_eq_command_iff_append (.absorb byte), fun byte s herr => ⟨?_, ?_⟩⟩
  · intro hphase hoffset hrate
    have hexec := exec_of_ok herr (bodyOf_absorb_absorbing (byte := byte) hphase)
    refine ⟨xorByteAt s.session.lanes s.session.offset.toNat byte, fun i _ => ?_, ?_⟩
    · simp only [byteAt_xorByteAt _ (hoffset.trans_le hrate), eq_comm]
    · rw [hexec]
      by_cases hlast : s.session.offset.toNat + 1 = s.session.rate.toNat
      · rw [Session.absorbByte_of_last hlast, if_pos hlast]
        rfl
      · rw [Session.absorbByte_of_room hlast, if_neg hlast, Session.fill_eq]
  · exact fun hphase => exec_of_error herr (bodyOf_absorb_finalized hphase)

/-- Settles O15: a legal index has its byte XORed, and the check refuses every other. -/
theorem xorbXorsOneByte : Obligations.XorbXorsOneByte := by
  refine ⟨fun index value => decode_eq_command_iff_append (.xorb index value), fun index value s herr => ⟨?_, ?_⟩⟩
  · intro hindex
    refine ⟨xorByteAt s.session.lanes index.toNat value, fun i _ => ?_,
      exec_of_ok herr (bodyOf_xorb_legal s ((indexLegal_iff index).2 hindex))⟩
    simp only [byteAt_xorByteAt _ hindex, eq_comm]
  · intro hindex
    have hillegal : indexLegal index = false :=
      Bool.eq_false_iff.2 fun hlegal => Nat.not_lt.2 hindex ((indexLegal_iff index).1 hlegal)
    exact exec_of_error herr (bodyOf_xorb_illegal s hillegal)

/-- `Pad()` byte by byte: its two XORs add up, also where they meet (R145). -/
theorem Session.byteAt_pad_lanes {ss : Session} (hoffset : ss.offset.toNat < ss.rate.toNat)
    (hrate : ss.rate.toNat ≤ 200) (i : Nat) :
    byteAt ss.pad.lanes i =
      byteAt ss.lanes i ^^^ (if i = ss.offset.toNat then ss.delim else 0x00)
        ^^^ (if i = ss.rate.toNat - 1 then 0x80 else 0x00) := by
  rw [pad_lanes, byteAt_xorByteAt_eq_xor _ (by omega), byteAt_xorByteAt_eq_xor _ (by omega)]

/-- Settles O17: `FINALIZE` has one word, and leaves the padded state permuted and its first 32 bytes in `OUT`. -/
theorem finalizePadsPermutesSqueezes : Obligations.FinalizePadsPermutesSqueezes := by
  refine ⟨decode_eq_command_iff_append .finalize, fun w hop hw => ?_, fun s herr => ⟨?_, ?_⟩⟩
  · have hword : encode .finalize = 0x00000005 := by decide
    exact decode_of_opcode eq_finalize_of_opcode hop (hword ▸ hw)
  · intro hphase hoffset _ hrate
    exact ⟨s.session.pad.lanes, squeeze s.session.finalize.lanes,
      fun i _ => Session.byteAt_pad_lanes hoffset hrate i, fun j hj => outAt_squeeze _ hj,
      exec_of_ok herr (bodyOf_finalize_absorbing hphase)⟩
  · exact fun hphase => exec_of_error herr (bodyOf_finalize_finalized hphase)

/-- Settles O49: the byte at `OFFSET` of an untouched session is 0 (R33), so XORing into it stores. -/
theorem overwriteEqualsXorWhileUntouched : Obligations.OverwriteEqualsXorWhileUntouched := by
  rintro ss byte ⟨hrate, hoffset, hzero⟩ huntouched
  obtain ⟨-, hmax⟩ := (rateLegal_iff ss.rate).1 hrate
  have hbyte : byteAt ss.lanes ss.offset.toNat = 0 := hzero huntouched _ (by omega) le_rfl
  rw [xorByteAt, hbyte, BitVec.ofNat_eq_ofNat, BitVec.zero_xor]

end Sys2Proof.Machine
end

section
/-! SUPPORT. Block-wise absorption (spec/41_sponge.md R148, R150, R151) byte by byte: the source's algorithm is a fold
of one step that XORs a byte in and permutes a completed block, whatever the chunks. -/

namespace Sys2Proof.Machine

/-- One byte of block-wise absorption: XORed in at the position, and a completed block permuted. -/
def Absorbed.absorbByte (rate : Nat) (st : Absorbed) (b : Byte) : Absorbed :=
  if st.position + 1 = rate then
    { lanes := keccakF (xorByteAt st.lanes st.position b), position := 0, permutations := st.permutations + 1 }
  else { st with lanes := xorByteAt st.lanes st.position b, position := st.position + 1 }

theorem Absorbed.absorbByte_of_last {rate : Nat} {st : Absorbed} (b : Byte) (h : st.position + 1 = rate) :
    st.absorbByte rate b = ⟨keccakF (xorByteAt st.lanes st.position b), 0, st.permutations + 1⟩ :=
  if_pos h

theorem Absorbed.absorbByte_of_room {rate : Nat} {st : Absorbed} (b : Byte) (h : st.position + 1 ≠ rate) :
    st.absorbByte rate b = ⟨xorByteAt st.lanes st.position b, st.position + 1, st.permutations⟩ :=
  if_neg h

theorem Absorbed.absorbByte_position_lt {rate : Nat} {st : Absorbed} (b : Byte) (h : st.position < rate) :
    (st.absorbByte rate b).position < rate := by
  by_cases hlast : st.position + 1 = rate
  · rw [absorbByte_of_last b hlast]
    exact Nat.zero_lt_of_lt h
  · rw [absorbByte_of_room b hlast]
    exact Nat.lt_of_le_of_ne h hlast

/-- The bytes absorbed since the start: the position, and a full block for each run of `f`. -/
theorem Absorbed.absorbByte_total (rate : Nat) (st : Absorbed) (b : Byte) :
    (st.absorbByte rate b).position + rate * (st.absorbByte rate b).permutations =
      st.position + rate * st.permutations + 1 := by
  by_cases hlast : st.position + 1 = rate
  · simp only [absorbByte_of_last b hlast, Nat.mul_add]
    omega
  · simp only [absorbByte_of_room b hlast]
    omega

theorem foldl_absorbByte_position_lt {rate : Nat} (m : List Byte) {st : Absorbed} (h : st.position < rate) :
    (m.foldl (Absorbed.absorbByte rate) st).position < rate := by
  induction m generalizing st with
  | nil => exact h
  | cons b rest ih => exact ih (Absorbed.absorbByte_position_lt b h)

theorem foldl_absorbByte_total (rate : Nat) (m : List Byte) (st : Absorbed) :
    (m.foldl (Absorbed.absorbByte rate) st).position + rate * (m.foldl (Absorbed.absorbByte rate) st).permutations =
      st.position + rate * st.permutations + m.length := by
  induction m generalizing st with
  | nil => rfl
  | cons b rest ih =>
    rw [List.foldl_cons, ih, Absorbed.absorbByte_total, List.length_cons]
    omega

/-- Where absorption from position `o` ends and how often `f` ran (R150). -/
theorem foldl_absorbByte_div_mod {rate : Nat} (m : List Byte) (a : LaneFile) {o : Nat} (h : o < rate) :
    (o + m.length) / rate = (m.foldl (Absorbed.absorbByte rate) ⟨a, o, 0⟩).permutations ∧
      (o + m.length) % rate = (m.foldl (Absorbed.absorbByte rate) ⟨a, o, 0⟩).position :=
  (Nat.div_mod_unique (Nat.zero_lt_of_lt h)).2
    ⟨foldl_absorbByte_total rate m ⟨a, o, 0⟩, foldl_absorbByte_position_lt m h⟩

/-- Bytes that leave the block incomplete stay XORed in. -/
theorem foldl_absorbByte_of_room {rate : Nat} (m : List Byte) {st : Absorbed} (h : st.position + m.length < rate) :
    m.foldl (Absorbed.absorbByte rate) st =
      { st with lanes := xorBytesAt st.lanes st.position m, position := st.position + m.length } := by
  induction m generalizing st with
  | nil => rfl
  | cons b rest ih =>
    rw [List.length_cons] at h
    rw [List.foldl_cons, Absorbed.absorbByte_of_room b (by omega), ih (by rw [Nat.add_assoc]; omega)]
    simp [xorBytesAt, Nat.add_assoc, Nat.add_comm 1]

/-- Bytes that complete the block are XORed in and permuted. -/
theorem foldl_absorbByte_of_full {rate : Nat} (m : List Byte) {st : Absorbed} (hpos : st.position < rate)
    (h : st.position + m.length = rate) :
    m.foldl (Absorbed.absorbByte rate) st =
      ⟨keccakF (xorBytesAt st.lanes st.position m), 0, st.permutations + 1⟩ := by
  induction m generalizing st with
  | nil => exact absurd h (Nat.ne_of_lt hpos)
  | cons b rest ih =>
    rw [List.length_cons] at h
    rw [List.foldl_cons]
    by_cases hlast : st.position + 1 = rate
    · obtain rfl : rest = [] := List.length_eq_zero_iff.1 (by omega)
      exact Absorbed.absorbByte_of_last b hlast
    · rw [Absorbed.absorbByte_of_room b hlast]
      exact ih (st := ⟨_, _, _⟩) (Nat.lt_of_le_of_ne hpos hlast) (by rw [← h, Nat.add_assoc, Nat.add_comm 1])

/-- The source's algorithm, block by block, is absorption byte by byte (R148). -/
theorem absorbBlocks_eq_foldl {rate fuel : Nat} {st : Absorbed} {m : List Byte} (hpos : st.position < rate)
    (hfuel : m.length ≤ fuel) : absorbBlocks rate fuel st m = m.foldl (Absorbed.absorbByte rate) st := by
  induction fuel generalizing st m with
  | zero =>
    obtain rfl : m = [] := List.length_eq_zero_iff.1 (Nat.le_zero.1 hfuel)
    rfl
  | succ fuel ih =>
    unfold absorbBlocks
    split
    · next hroom => rw [foldl_absorbByte_of_room m hroom]
    · next hfull =>
      have htake : st.position + (m.take (rate - st.position)).length = rate := by
        rw [List.length_take]
        omega
      have hdrop : (m.drop (rate - st.position)).length ≤ fuel := by
        rw [List.length_drop]
        omega
      rw [ih (Nat.zero_lt_of_lt hpos) hdrop, ← foldl_absorbByte_of_full _ hpos htake, ← List.foldl_append,
        List.take_append_drop]

/-- Block-wise absorption of two chunks is that of their concatenation (R151). -/
theorem absorbBlocks_append {rate : Nat} {st : Absorbed} (c₁ c₂ : List Byte) (hpos : st.position < rate) :
    absorbBlocks rate c₂.length (absorbBlocks rate c₁.length st c₁) c₂ =
      absorbBlocks rate (c₁ ++ c₂).length st (c₁ ++ c₂) := by
  rw [absorbBlocks_eq_foldl hpos le_rfl, absorbBlocks_eq_foldl hpos le_rfl,
    absorbBlocks_eq_foldl (foldl_absorbByte_position_lt c₁ hpos) le_rfl, List.foldl_append]

end Sys2Proof.Machine
end

section
/-! SUPPORT. The machine's `UPDATE` is block-wise absorption: one `ABSORB` is one byte of it (spec/41_sponge.md R142,
R143, R148, R150, R151). -/

namespace Sys2Proof.Machine

/-- A command's next state is where the commands after it run. -/
theorem runCommands_cons {i : Instr} {s t : State} (h : exec i s = .next t) (rest : List Instr) :
    runCommands (i :: rest) s = runCommands rest t := by
  rw [runCommands, h]

theorem runCommands_append {is : List Instr} {s t : State} (h : runCommands is s = .next t) (rest : List Instr) :
    runCommands (is ++ rest) s = runCommands rest t := by
  induction is generalizing s with
  | nil =>
    cases h
    rfl
  | cons i is ih =>
    have hi := exec_eq i s
    rw [runCommands_cons hi] at h
    rw [List.cons_append, runCommands_cons hi, ih h]

/-- The session with what block-wise absorption has reached, `UNTOUCHED` cleared once `f` has run (R32). -/
def Session.withAbsorbed (ss : Session) (r : Absorbed) : Session :=
  { ss with
    lanes := r.lanes
    offset := BitVec.ofNat 8 r.position
    untouched := ss.untouched && r.permutations == 0 }

theorem Session.withAbsorbed_self (ss : Session) : ss.withAbsorbed ⟨ss.lanes, ss.offset.toNat, 0⟩ = ss := by
  simp [withAbsorbed]

/-- A position below the rate fits the register `OFFSET`. -/
theorem Session.withAbsorbed_offset {ss : Session} {r : Absorbed} (h : r.position < ss.rate.toNat) :
    (ss.withAbsorbed r).offset.toNat = r.position :=
  (BitVec.toNat_ofNat _ _).trans (Nat.mod_eq_of_lt (h.trans ss.rate.isLt))

theorem Session.fill_withAbsorbed {ss : Session} {r : Absorbed} (b : Byte) (h : r.position < ss.rate.toNat) :
    (ss.withAbsorbed r).fill b =
      ss.withAbsorbed ⟨xorByteAt r.lanes r.position b, r.position + 1, r.permutations⟩ := by
  rw [fill, withAbsorbed_offset h]
  rfl

theorem Session.completeBlock_withAbsorbed (ss : Session) (r : Absorbed) :
    (ss.withAbsorbed r).completeBlock = ss.withAbsorbed ⟨keccakF r.lanes, 0, r.permutations + 1⟩ := by
  simp [completeBlock, permute, withAbsorbed]

/-- One absorbed byte is one byte of block-wise absorption (R142, R143). -/
theorem Session.absorbByte_withAbsorbed {ss : Session} {r : Absorbed} (b : Byte) (h : r.position < ss.rate.toNat) :
    (ss.withAbsorbed r).absorbByte b = ss.withAbsorbed (r.absorbByte ss.rate.toNat b) := by
  have hoffset := withAbsorbed_offset h
  by_cases hlast : r.position + 1 = ss.rate.toNat
  · rw [absorbByte_of_last (by rw [hoffset]; exact hlast), fill_withAbsorbed b h, completeBlock_withAbsorbed,
      Absorbed.absorbByte_of_last b hlast]
  · rw [absorbByte_of_room (by rw [hoffset]; exact hlast), fill_withAbsorbed b h,
      Absorbed.absorbByte_of_room b hlast]

/-- The state whose session has what block-wise absorption has reached. -/
def State.withAbsorbed (s : State) (r : Absorbed) : State := { s with session := s.session.withAbsorbed r }

theorem State.withAbsorbed_self (s : State) : s.withAbsorbed ⟨s.session.lanes, s.session.offset.toNat, 0⟩ = s := by
  rw [withAbsorbed, Session.withAbsorbed_self]

section
variable {s : State} (herr : s.err = false) (hphase : s.session.phase = .absorbing)
include herr hphase

theorem exec_absorb_withAbsorbed {r : Absorbed} (b : Byte) (h : r.position < s.session.rate.toNat) :
    exec (.absorb b) (s.withAbsorbed r) = .next (s.withAbsorbed (r.absorbByte s.session.rate.toNat b)) := by
  rw [State.withAbsorbed.eq_def s (r.absorbByte _ b), ← Session.absorbByte_withAbsorbed b h]
  exact exec_of_ok (s := s.withAbsorbed r) herr (bodyOf_absorb_absorbing hphase)

theorem runCommands_updateCommands_withAbsorbed (m : List Byte) {r : Absorbed}
    (h : r.position < s.session.rate.toNat) :
    runCommands (updateCommands m) (s.withAbsorbed r) =
      .next (s.withAbsorbed (m.foldl (Absorbed.absorbByte s.session.rate.toNat) r)) := by
  induction m generalizing r with
  | nil => rfl
  | cons b rest ih =>
    calc runCommands (updateCommands (b :: rest)) (s.withAbsorbed r)
      _ = runCommands (updateCommands rest) (s.withAbsorbed (r.absorbByte s.session.rate.toNat b)) :=
        runCommands_cons (exec_absorb_withAbsorbed herr hphase b h) _
      _ = _ := ih (Absorbed.absorbByte_position_lt b h)

/-- `UPDATE` answers the state that absorption byte by byte reaches (R148). -/
theorem runCommands_updateCommands (m : List Byte) (h : s.session.offset.toNat < s.session.rate.toNat) :
    runCommands (updateCommands m) s =
      .next (s.withAbsorbed (m.foldl (Absorbed.absorbByte s.session.rate.toNat)
        ⟨s.session.lanes, s.session.offset.toNat, 0⟩)) := by
  have hrun := runCommands_updateCommands_withAbsorbed herr hphase m
    (r := ⟨s.session.lanes, s.session.offset.toNat, 0⟩) h
  rwa [State.withAbsorbed_self] at hrun

end

/-- Settles O37: both sides are absorption byte by byte, the algorithm's by `absorbBlocks_eq_foldl` and the machine's
by `runCommands_updateCommands`. -/
theorem updateIsBlockwiseAbsorption : Obligations.UpdateIsBlockwiseAbsorption := by
  rintro m s herr hphase ⟨-, hoffset, -⟩
  obtain ⟨hcount, hposition⟩ := foldl_absorbByte_div_mod m s.session.lanes hoffset
  exact ⟨_, (absorbBlocks_eq_foldl hoffset le_rfl).symm, hposition.symm, hcount.symm,
    runCommands_updateCommands herr hphase m hoffset⟩

/-- Settles O41: block-wise absorption is a fold over the bytes, and the commands of the chunks in order are those of
their concatenation. -/
theorem chunkingIndependence : Obligations.ChunkingIndependence := by
  refine ⟨fun rate st c₁ c₂ hpos => absorbBlocks_append c₁ c₂ hpos, ?_⟩
  rintro chunks s herr hphase ⟨-, hoffset, -⟩
  have hcommands : (chunks.map updateCommands).flatten = updateCommands chunks.flatten := List.map_flatten.symm
  rw [hcommands]
  exact ⟨_, (absorbBlocks_eq_foldl hoffset le_rfl).symm, runCommands_updateCommands herr hphase _ hoffset⟩

end Sys2Proof.Machine
end

section
/-! SUPPORT. The multi-rate padding (spec/41_sponge.md R145, R152): what it appends to a message, that it fills the
last block, and what it is bit by bit. -/

namespace Sys2Proof.Machine

/-- The bytes of the padding where `left` bytes are left of the last block (R145). -/
def padBytes (left : Nat) (delim : Byte) : List Byte :=
  if left = 1 then [delim ^^^ 0x80] else delim :: (List.replicate (left - 2) 0 ++ [0x80])

theorem padMessage_eq_append (rate : Nat) (delim : Byte) (m : List Byte) :
    padMessage rate delim m = m ++ padBytes (rate - m.length % rate) delim := by
  unfold padMessage padBytes
  by_cases h : rate - m.length % rate = 1
  · simp only [h, if_true]
  · simp only [if_neg h, List.append_assoc, List.cons_append, List.nil_append]

/-- The padding fills the last block. -/
theorem length_padBytes {left : Nat} (delim : Byte) (h : 0 < left) : (padBytes left delim).length = left := by
  unfold padBytes
  split
  · next h1 => exact h1.symm
  · next h1 =>
    simp only [List.length_cons, List.length_append, List.length_replicate, List.length_nil]
    omega

/-- A padded message is a whole number of blocks. -/
theorem length_padMessage {rate : Nat} (delim : Byte) (m : List Byte) (h : 0 < rate) :
    (padMessage rate delim m).length = (m.length / rate + 1) * rate := by
  have hmod := Nat.mod_lt m.length h
  have hdiv := Nat.div_add_mod' m.length rate
  rw [padMessage_eq_append, List.length_append, length_padBytes delim (by omega), Nat.add_mul]
  omega

@[simp] theorem bitString_append (m n : List Byte) : bitString (m ++ n) = bitString m ++ bitString n :=
  List.flatMap_append

theorem bitString_cons (b : Byte) (m : List Byte) : bitString (b :: m) = bitString [b] ++ bitString m :=
  bitString_append [b] m

/-- Eight bits a byte. -/
theorem length_bitString (m : List Byte) : (bitString m).length = 8 * m.length := by
  induction m with
  | nil => rfl
  | cons b rest ih =>
    have hbyte : (bitString [b]).length = 8 := rfl
    rw [bitString_cons, List.length_append, ih, hbyte, List.length_cons]
    omega

theorem bitString_replicate_zero (n : Nat) : bitString (List.replicate n 0) = List.replicate (8 * n) false := by
  induction n with
  | zero => rfl
  | succ n ih =>
    have hbyte : bitString [0] = List.replicate 8 false := by decide
    rw [List.replicate_succ, bitString_cons, ih, hbyte, List.replicate_append_replicate, Nat.mul_succ, Nat.add_comm]

/-- The padding with delimiter 0x01 is a 1 bit, zero bits and a 1 bit (R152). -/
theorem bitString_padBytes {left : Nat} (h : 0 < left) :
    bitString (padBytes left 0x01) = true :: (List.replicate (8 * left - 2) false ++ [true]) := by
  unfold padBytes
  split
  · next h1 =>
    subst h1
    decide
  · next h1 =>
    have hfirst : bitString [0x01] = true :: List.replicate 7 false := by decide
    have hlast : bitString [0x80] = List.replicate 7 false ++ [true] := by decide
    have hzeros : 7 + 8 * (left - 2) + 7 = 8 * left - 2 := by omega
    rw [bitString_cons, bitString_append, bitString_replicate_zero, hfirst, hlast, List.cons_append,
      ← List.append_assoc, ← List.append_assoc, List.replicate_append_replicate, List.replicate_append_replicate,
      hzeros]

/-- Settles O39: the padding fills the block that the message leaves open, so its zero bits are the fewest. -/
theorem paddingIsPad10Star1 : Obligations.PaddingIsPad10Star1 := by
  intro rate m hrate
  have hmod := Nat.mod_lt m.length hrate
  refine ⟨8 * (rate - m.length % rate) - 2, by omega, ?_, ?_⟩
  · have hbits : (bitString m).length + (8 * (rate - m.length % rate) - 2) + 2 =
        8 * (padMessage rate 0x01 m).length := by
      rw [length_bitString, padMessage_eq_append, List.length_append, length_padBytes _ (by omega)]
      omega
    rw [hbits, length_padMessage _ _ hrate]
    exact Nat.mul_dvd_mul_left 8 (Nat.dvd_mul_left _ _)
  · rw [padMessage_eq_append, bitString_append, bitString_padBytes (by omega)]

end Sys2Proof.Machine
end

section
/-! SUPPORT. A session computes the sponge (spec/41_sponge.md R145 to R149, R153; spec/70_reset_and_hazards.md R234):
absorbing the padded message block by block is absorbing the message and then padding the open block. -/

namespace Sys2Proof.Machine

/-- The padding's bytes XORed in are `Pad()`'s two XORs (R145). -/
theorem xorBytesAt_padBytes (a : LaneFile) {o left : Nat} (delim : Byte) (hleft : 0 < left) (h : o + left ≤ 200) :
    xorBytesAt a o (padBytes left delim) = xorByteAt (xorByteAt a o delim) (o + left - 1) 0x80 := by
  unfold padBytes
  split
  · next h1 =>
    subst h1
    rw [xorBytesAt, xorBytesAt, Nat.add_sub_cancel, xorByteAt_xorByteAt a (by omega)]
  · next h1 =>
    have hlast : o + 1 + (List.replicate (left - 2) (0 : Byte)).length = o + left - 1 := by
      rw [List.length_replicate]
      omega
    rw [xorBytesAt, xorBytesAt_append, xorBytesAt_zeros _ (by omega), hlast]
    rfl

/-- One block of the sponge on a padded message: XORed in and permuted. -/
def absorbBlock (a : LaneFile) (block : List Byte) : LaneFile := keccakF (xorBytesAt a 0 block)

/-- On a whole number of blocks the sponge is absorption byte by byte. -/
theorem foldl_absorbBlock_blocksOf {rate : Nat} (hrate : 0 < rate) (n : Nat) (M : List Byte)
    (h : M.length = n * rate) (a : LaneFile) (k : Nat) :
    (blocksOf rate n M).foldl absorbBlock a = (M.foldl (Absorbed.absorbByte rate) ⟨a, 0, k⟩).lanes := by
  induction n generalizing M a k with
  | zero =>
    obtain rfl : M = [] := List.length_eq_zero_iff.1 (by rw [h, Nat.zero_mul])
    rfl
  | succ n ih =>
    rw [Nat.succ_mul] at h
    have htake : 0 + (M.take rate).length = rate := by
      rw [List.length_take]
      omega
    have hdrop : (M.drop rate).length = n * rate := by
      rw [List.length_drop]
      omega
    have hblock := foldl_absorbByte_of_full (st := ⟨a, 0, k⟩) (M.take rate) hrate htake
    calc (blocksOf rate (n + 1) M).foldl absorbBlock a
      _ = (blocksOf rate n (M.drop rate)).foldl absorbBlock (absorbBlock a (M.take rate)) := rfl
      _ = ((M.take rate ++ M.drop rate).foldl (Absorbed.absorbByte rate) ⟨a, 0, k⟩).lanes := by
        rw [ih _ hdrop _ (k + 1), List.foldl_append, hblock]
        rfl
      _ = _ := by rw [List.take_append_drop]

theorem spongeDigest_eq_squeeze {rate : Nat} (hrate : 0 < rate) (delim : Byte) (m : List Byte) :
    spongeDigest rate delim m =
      squeeze ((padMessage rate delim m).foldl (Absorbed.absorbByte rate) ⟨zeroLanes, 0, 0⟩).lanes :=
  congrArg squeeze (foldl_absorbBlock_blocksOf hrate _ _ (length_padMessage delim m hrate) zeroLanes 0)

/-- A session that has absorbed a message from its start pads the open block into the one that the padded message's
absorption permutes last (R145, R147). -/
theorem finalize_withAbsorbed_lanes {rate : Byte} (delim : Byte) (m : List Byte) (h : rateLegal rate = true)
    {r : Absorbed} (hr : r = m.foldl (Absorbed.absorbByte rate.toNat) ⟨zeroLanes, 0, 0⟩) :
    ((newSession rate delim).withAbsorbed r).finalize.lanes =
      ((padMessage rate.toNat delim m).foldl (Absorbed.absorbByte rate.toNat) ⟨zeroLanes, 0, 0⟩).lanes := by
  obtain ⟨hmin, hmax⟩ := (rateLegal_iff rate).1 h
  have hrate : 0 < rate.toNat := by omega
  have hlt : r.position < rate.toNat := hr ▸ foldl_absorbByte_position_lt m hrate
  have hposition : m.length % rate.toNat = r.position := by
    rw [hr, ← (foldl_absorbByte_div_mod m zeroLanes hrate).2, Nat.zero_add]
  have hleft : 0 < rate.toNat - r.position := by omega
  have hfull : r.position + (rate.toNat - r.position) = rate.toNat := by omega
  have hoffset := Session.withAbsorbed_offset (ss := newSession rate delim) hlt
  rw [padMessage_eq_append, List.foldl_append, ← hr, hposition,
    foldl_absorbByte_of_full _ hlt (by rw [length_padBytes delim hleft, hfull]),
    xorBytesAt_padBytes _ delim hleft (by omega), hfull, Session.finalize_lanes, Session.pad_lanes, hoffset]
  rfl

/-- `UPDATE m; FINALIZE` of a new session leaves the sponge's digest in `OUT` (R148, R149). -/
theorem runCommands_update_finalize {rate : Byte} (delim : Byte) (m : List Byte) {s : State} (herr : s.err = false)
    (h : rateLegal rate = true) :
    ∃ t, runCommands (updateCommands m ++ [.finalize]) { s with session := newSession rate delim } = .next t ∧
      t.err = false ∧ t.out = spongeDigest rate.toNat delim m := by
  have hrate : 0 < rate.toNat := Nat.zero_lt_of_lt ((rateLegal_iff rate).1 h).1
  have hupdate := runCommands_updateCommands (s := { s with session := newSession rate delim }) herr rfl m hrate
  have hfinalize := exec_of_ok (s := State.withAbsorbed { s with session := newSession rate delim }
    (m.foldl (Absorbed.absorbByte rate.toNat) ⟨zeroLanes, 0, 0⟩)) herr (bodyOf_finalize_absorbing rfl)
  refine ⟨_, (runCommands_append hupdate _).trans (runCommands_cons hfinalize []), herr, ?_⟩
  rw [spongeDigest_eq_squeeze hrate, ← finalize_withAbsorbed_lanes delim m h rfl]
  rfl

/-- Settles O38: `INIT` starts a new session, and `runCommands_update_finalize` is the rest. -/
theorem sessionComputesTheSpongeDigest : Obligations.SessionComputesTheSpongeDigest := by
  intro rate delim m s herr hmin hmax
  have hlegal : rateLegal rate = true := (rateLegal_iff rate).2 ⟨hmin, hmax⟩
  rw [runCommands_cons (exec_of_ok herr (bodyOf_init_legal s hlegal))]
  exact runCommands_update_finalize delim m herr hlegal

/-- Settles O40: `KECCAK256` is a session of rate 136 and delimiter 0x01, and reset leaves that session new. -/
theorem keccak256IsReadyAtReset : Obligations.Keccak256IsReadyAtReset := by
  intro m s herr
  constructor
  · obtain ⟨t, hrun, -, hout⟩ := sessionComputesTheSpongeDigest 136 0x01 m s herr (by decide) (by decide)
    exact ⟨t, hrun, hout⟩
  · obtain ⟨t, hrun, -, hout⟩ :=
      runCommands_update_finalize (rate := 136) 0x01 m (s := State.reset) rfl (by decide)
    exact ⟨t, hrun, hout⟩

end Sys2Proof.Machine
end

section
/-! SUPPORT. `XORLANE` (spec/30_encoding.md R79; spec/41_sponge.md R144, R155): eight `XORB` at consecutive indices XOR
the bytes of a lane into that lane. -/

namespace Sys2Proof.Machine

/-- One `XORB` a byte, at consecutive indices from `o` on. -/
def xorbCommands (o : Nat) : List Byte → List Instr
  | [] => []
  | b :: rest => .xorb (BitVec.ofNat 8 o) b :: xorbCommands (o + 1) rest

/-- Consecutive `XORB` XOR the bytes in, and clear `UNTOUCHED` if there is one (R144). -/
theorem runCommands_xorbCommands {o : Nat} {bytes : List Byte} {s : State} (herr : s.err = false)
    (h : o + bytes.length ≤ 200) :
    runCommands (xorbCommands o bytes) s = .next { s with
      session := { s.session with
        lanes := xorBytesAt s.session.lanes o bytes
        untouched := s.session.untouched && bytes.isEmpty } } := by
  induction bytes generalizing o s with
  | nil => simp [xorbCommands, runCommands, xorBytesAt]
  | cons b rest ih =>
    rw [List.length_cons] at h
    have hindex : (BitVec.ofNat 8 o).toNat = o := (BitVec.toNat_ofNat _ _).trans (Nat.mod_eq_of_lt (by omega))
    have hlegal : indexLegal (BitVec.ofNat 8 o) = true := (indexLegal_iff _).2 (by omega)
    have hrest := ih (o := o + 1) (s := { s with session := s.session.xorByte (BitVec.ofNat 8 o) b }) herr (by omega)
    rw [xorbCommands, runCommands_cons (exec_of_ok herr (bodyOf_xorb_legal s hlegal)), hrest]
    simp only [Session.xorByte, hindex, xorBytesAt, Bool.false_and, List.isEmpty_cons, Bool.and_false]

/-- Lanes are equal when their eight bytes are. -/
theorem lane_ext_bytes {v w : Lane} (h : ∀ k < 8, v.extractLsb' (8 * k) 8 = w.extractLsb' (8 * k) 8) : v = w := by
  apply BitVec.eq_of_toNat_eq
  rw [lane_toNat_eq_sum_extract v, lane_toNat_eq_sum_extract w]
  exact Finset.sum_congr rfl fun k hk => by rw [h k (Finset.mem_range.1 hk)]

/-- The eight bytes of a lane, the least significant first (R11). -/
def laneBytes (v : Lane) : List Byte := (List.range 8).map fun k => v.extractLsb' (8 * k) 8

theorem length_laneBytes (v : Lane) : (laneBytes v).length = 8 := rfl

theorem getD_laneBytes (v : Lane) (k : Nat) :
    (laneBytes v).getD k 0 = if k < 8 then v.extractLsb' (8 * k) 8 else 0 := by
  by_cases h : k < 8 <;> simp [laneBytes, h]

/-- XORing a lane's bytes in at a lane's place XORs that lane and no other. -/
theorem laneAt_xorBytesAt_laneBytes (a : LaneFile) (x y x' y' : Fin 5) (v : Lane) :
    laneAt (xorBytesAt a (8 * (x.val + 5 * y.val)) (laneBytes v)) x' y' =
      if x' = x ∧ y' = y then laneAt a x y ^^^ v else laneAt a x' y' := by
  apply lane_ext_bytes
  intro k hk
  have hroom : 8 * (x.val + 5 * y.val) + (laneBytes v).length ≤ 200 := by
    rw [length_laneBytes]
    omega
  rw [← byteAt_eq_extract_laneAt _ _ _ hk, byteAt_xorBytesAt _ hroom, getD_laneBytes,
    byteAt_eq_extract_laneAt _ _ _ hk]
  by_cases hsame : x' = x ∧ y' = y
  · obtain ⟨rfl, rfl⟩ := hsame
    simp [hk, BitVec.extractLsb'_xor]
  · have hout : ¬(8 * (x.val + 5 * y.val) ≤ 8 * (x'.val + 5 * y'.val) + k ∧
        8 * (x'.val + 5 * y'.val) + k - 8 * (x.val + 5 * y.val) < 8) := fun _ => hsame (by omega)
    rw [if_neg hsame, ← ite_and, if_neg hout, BitVec.ofNat_eq_ofNat, BitVec.xor_zero]

/-- Settles O42: `XORLANE`'s commands are the consecutive `XORB` of the value's bytes from the lane's first byte on. -/
theorem xorLaneXorsOneLane : Obligations.XorLaneXorsOneLane := by
  intro x y v s herr
  have hcommands : xorLaneCommands x y v = xorbCommands (8 * (x.val + 5 * y.val)) (laneBytes v) := rfl
  have hroom : 8 * (x.val + 5 * y.val) + (laneBytes v).length ≤ 200 := by
    rw [length_laneBytes]
    omega
  have hrun := runCommands_xorbCommands herr hroom
  have hnonempty : (laneBytes v).isEmpty = false := rfl
  rw [hnonempty, Bool.and_false, ← hcommands] at hrun
  exact ⟨_, fun x' y' => laneAt_xorBytesAt_laneBytes s.session.lanes x y x' y' v, hrun⟩

end Sys2Proof.Machine
end

section
/-! SUPPORT. The checkpoint (spec/42_session_control.md R181 to R183): the slot is written by `SAVE` alone, along any
sequence of commands. -/

namespace Sys2Proof.Machine

/-- A command other than `SAVE` keeps the slot: it is ignored, takes an effect elsewhere, or enters an error. -/
theorem perform_bodyOf_keeps_slot {i : Instr} (hsave : i ≠ .save) (s : State) :
    (perform (bodyOf i) s).sv = s.sv ∧ (perform (bodyOf i) s).saveValid = s.saveValid := by
  rcases perform_cases (bodyOf i) s with ⟨-, hp⟩ | ⟨t, -, hbody, hp⟩ | ⟨c, -, -, hp⟩
  · rw [hp]
    exact ⟨rfl, rfl⟩
  · obtain ⟨-, -, -, -, -, -, hkeep⟩ := bodyOf_ok_frame hbody
    rw [hp]
    exact hkeep hsave
  · rw [hp, raiseError_sv, raiseError_saveValid]
    exact ⟨rfl, rfl⟩

/-- Commands issued one after the other always answer a next state. -/
theorem exists_runCommands (is : List Instr) (s : State) : ∃ t, runCommands is s = .next t := by
  induction is generalizing s with
  | nil => exact ⟨s, rfl⟩
  | cons i rest ih => rw [runCommands_cons (exec_eq i s)]; exact ih _

/-- Commands without `SAVE` keep the slot (R183). -/
theorem runCommands_keeps_slot {is : List Instr} {s t : State} (hsave : .save ∉ is)
    (h : runCommands is s = .next t) : t.sv = s.sv ∧ t.saveValid = s.saveValid := by
  induction is generalizing s with
  | nil =>
    cases h
    exact ⟨rfl, rfl⟩
  | cons i rest ih =>
    obtain ⟨hi, hrest⟩ := List.ne_and_not_mem_of_not_mem_cons hsave
    rw [runCommands_cons (exec_eq i s)] at h
    obtain ⟨hsv, hvalid⟩ := ih hrest h
    obtain ⟨hsv', hvalid'⟩ := perform_bodyOf_keeps_slot (Ne.symm hi) s
    exact ⟨hsv.trans hsv', hvalid.trans hvalid'⟩

theorem bodyOf_save (s : State) : bodyOf .save s = .ok { s with sv := s.session, saveValid := true } := rfl

/-- A `RESTORE` that ends without an error has resumed the slot's session, and keeps the slot (R182). -/
theorem perform_restore_of_no_error {s : State} (h : (perform (bodyOf .restore) s).err = false) :
    perform (bodyOf .restore) s = { s with session := s.sv } := by
  rcases perform_cases (bodyOf .restore) s with ⟨herr, hp⟩ | ⟨t, -, hbody, hp⟩ | ⟨c, -, -, hp⟩
  · rw [hp, herr] at h
    cases h
  · obtain ⟨-, heffect⟩ := bodyOf_ok_iff.1 hbody
    rw [hp, ← heffect, effectOf]
  · rw [hp, raiseError_err] at h
    cases h

/-- Settles O43: the commands between keep the slot that `SAVE` has written, and `RESTORE` copies it back. -/
theorem checkpointIsIndependent : Obligations.CheckpointIsIndependent := by
  refine ⟨fun is s t hsave hrun => runCommands_keeps_slot hsave hrun, fun is s t hsave herr hrun hend => ?_⟩
  obtain ⟨u, hu⟩ := exists_runCommands is { s with sv := s.session, saveValid := true }
  obtain ⟨hslot, -⟩ := runCommands_keeps_slot hsave hu
  rw [runCommands_cons (exec_of_ok herr (bodyOf_save s)), runCommands_append hu,
    runCommands_cons (exec_eq .restore u)] at hrun
  obtain rfl : perform (bodyOf .restore) u = t := Host.Outcome.next.inj hrun
  rw [perform_restore_of_no_error hend]
  exact ⟨hslot, hslot⟩

end Sys2Proof.Machine
end

section
/-! SUPPORT. A command that takes no operand has one word (spec/30_encoding.md R72 to R74). -/

namespace Sys2Proof

/-- A command is its mnemonic and its operand fields (R72). -/
theorem Instr.command_mnemonic (i : Instr) : i.mnemonic.command i.operandA i.operandB = i := by
  cases i <;> rfl

/-- A command that takes no operand does not depend on the operand fields (R72). -/
theorem Mnemonic.command_of_no_operands {m : Mnemonic} (h : m.operandCount = 0) (a b a' b' : Byte) :
    m.command a b = m.command a' b' := by
  cases m with
  | nop | permute | finalize | save | restore => rfl
  | init | absorb | xorb => cases h

/-- Distinct mnemonics have distinct opcodes (R73). -/
theorem Mnemonic.opcode_injective : Function.Injective Mnemonic.opcode := by
  intro m n
  cases m <;> cases n <;> decide

/-- A command that takes no operand is the only command with its opcode (R73). -/
theorem eq_of_opcode_of_no_operands {i : Instr} (hcount : i.mnemonic.operandCount = 0) (j : Instr)
    (h : j.mnemonic.opcode = i.mnemonic.opcode) : j = i :=
  calc j
    _ = j.mnemonic.command j.operandA j.operandB := j.command_mnemonic.symm
    _ = i.mnemonic.command j.operandA j.operandB := by rw [Mnemonic.opcode_injective h]
    _ = i.mnemonic.command i.operandA i.operandB := Mnemonic.command_of_no_operands hcount _ _ _ _
    _ = i := i.command_mnemonic

/-- A command that takes no operand has one word, and any other word with its opcode is RESERVED_NONZERO (R74). -/
theorem decode_of_no_operands {i : Instr} (hcount : i.mnemonic.operandCount = 0) {word : CommandWord}
    (hword : encode i = word) :
    (∀ w, decode w = .command i ↔ w = word) ∧
      ∀ w, opField w = i.mnemonic.opcode → w ≠ word → decode w = .illegal .reservedNonzero := by
  subst hword
  exact ⟨fun w => decode_eq_command_iff.trans eq_comm,
    fun w => decode_of_opcode (eq_of_opcode_of_no_operands hcount)⟩

end Sys2Proof
end

section
/-! SUPPORT. The commands `NOP`, `SAVE` and `RESTORE` (spec/42_session_control.md R180 to R182). -/

namespace Sys2Proof.Machine

/-- `NOP`, ignored or not, answers the same state (R180). -/
theorem exec_nop (s : State) : exec .nop s = .next s := by
  cases herr : s.err with
  | true => rw [exec_eq, perform_of_err _ herr]
  | false => exact exec_of_ok herr rfl

/-- Settles O12: `NOP` has one word, and its body leaves the state. -/
theorem nopChangesNothing : Obligations.NopChangesNothing := by
  obtain ⟨hword, hother⟩ := decode_of_no_operands (i := .nop) (word := 0x00000000) rfl (by decide)
  exact ⟨exec_nop, hword, hother⟩

/-- Settles O18: `SAVE` has one word and no check of its own, and its body copies the whole session. -/
theorem saveCopiesTheSession : Obligations.SaveCopiesTheSession := by
  obtain ⟨hword, hother⟩ := decode_of_no_operands (i := .save) (word := 0x00000006) rfl (by decide)
  exact ⟨hword, hother, fun s herr => exec_of_ok herr (bodyOf_save s)⟩

/-- Settles O19: `RESTORE` has one word, and its check is `SAVE_VALID`. -/
theorem restoreCopiesTheSlotBack : Obligations.RestoreCopiesTheSlotBack := by
  obtain ⟨hword, hother⟩ := decode_of_no_operands (i := .restore) (word := 0x00000007) rfl (by decide)
  exact ⟨hword, hother, fun s herr =>
    ⟨fun hvalid => exec_of_ok herr (bodyOf_restore_valid hvalid),
      fun hinvalid => exec_of_error herr (bodyOf_restore_invalid hinvalid)⟩⟩

end Sys2Proof.Machine
end

section
/-! SUPPORT. What an error does to the block (spec/60_exceptions.md R201 to R204): which cause an issued word raises,
that error entry is precise, and that only reset leaves the error. -/

namespace Sys2Proof.Machine

/-- While `ERR = 1` an issued word has no effect, whatever it is (R204). -/
theorem issueCommand_of_err {s : State} (herr : s.err = true) (w : CommandWord) : issueCommand w s = .next s := by
  rw [issueCommand_eq, perform_of_err _ herr]

/-- While `ERR = 1` a command has no effect (R204). -/
theorem exec_of_err {s : State} (herr : s.err = true) (i : Instr) : exec i s = .next s := by
  rw [exec_eq, perform_of_err _ herr]

/-- While `ERR = 1` a step that serves no reset keeps both error registers (R204). -/
theorem step_keeps_error {s t : State} (herr : s.err = true) (hstep : step s = .next t)
    (hreset : nextTransaction s ≠ some .reset) : t.err = true ∧ t.errCause = s.errCause := by
  rcases step_cases hstep with ⟨w, -, rfl⟩ | ⟨a, -, rfl⟩ | ⟨hnext, -⟩ | ⟨-, rfl⟩
  · rw [perform_of_err _ (show (advance s).err = true from herr)]
    exact ⟨herr, rfl⟩
  · exact ⟨herr, rfl⟩
  · exact absurd hnext hreset
  · exact ⟨herr, rfl⟩

/-- A step that serves a reset leaves no error (R230). -/
theorem step_reset_clears_error {s t : State} (hstep : step s = .next t) (hreset : nextTransaction s = some .reset) :
    t.err = false ∧ t.errCause = 0x00 := by
  rw [step_reset hreset] at hstep
  cases hstep
  exact ⟨rfl, rfl⟩

/-- Settles O20: the frame of a command ignores it while `ERR = 1`, and of the transactions only reset writes the error
registers then. -/
theorem errorIsStickyUntilReset : Obligations.ErrorIsStickyUntilReset :=
  ⟨fun _ w herr => issueCommand_of_err herr w, fun _ i herr => exec_of_err herr i,
    fun s a _ hread => ⟨answerRead a (advance s), step_read hread, rfl⟩,
    fun _ _ herr hstep hreset => step_keeps_error herr hstep hreset,
    fun _ _ hstep hreset => step_reset_clears_error hstep hreset⟩

/-- The cause an issued word raises while `ERR = 0`: the decoder's, else that of the command's own check (R202). -/
def issueCause (w : CommandWord) (s : State) : Option ErrorCause :=
  match decode w with
  | .command i => checkOf i s
  | .illegal c => some c

theorem issueCause_of_command {w : CommandWord} {i : Instr} (h : decode w = .command i) (s : State) :
    issueCause w s = checkOf i s := by
  rw [issueCause, h]

theorem issueCause_of_illegal {w : CommandWord} {c : ErrorCause} (h : decode w = .illegal c) (s : State) :
    issueCause w s = some c := by
  rw [issueCause, h]

/-- A word's body raises exactly the cause of the word. -/
theorem issueBody_error_iff {w : CommandWord} {s : State} {c : ErrorCause} :
    issueBody w s = .error c ↔ issueCause w s = some c := by
  cases h : decode w with
  | command i => rw [issueBody_of_command h, issueCause_of_command h, bodyOf_error_iff]
  | illegal d => rw [issueBody_of_illegal h, issueCause_of_illegal h, Except.error.injEq, Option.some.injEq]

/-- Everything an issued word can do to the error registers: it is ignored, raises no cause and leaves them, or enters
the error of its cause. -/
theorem issueCommand_cases (w : CommandWord) (s : State) :
    (s.err = true ∧ issueCommand w s = .next s) ∨
    (s.err = false ∧ issueCause w s = none ∧
      ∃ t, issueCommand w s = .next t ∧ t.err = false ∧ t.errCause = s.errCause) ∨
    (s.err = false ∧ ∃ c, issueCause w s = some c ∧ issueCommand w s = .next (raiseError c s)) := by
  rw [issueCommand_eq]
  rcases perform_cases (issueBody w) s with ⟨herr, hp⟩ | ⟨t, herr, hbody, hp⟩ | ⟨c, herr, hbody, hp⟩
  · exact .inl ⟨herr, by rw [hp]⟩
  · obtain ⟨herr', hcause, -⟩ := issueBody_ok_frame hbody
    obtain ⟨i, hdecode, hok⟩ := issueBody_ok_iff.1 hbody
    obtain ⟨hcheck, -⟩ := bodyOf_ok_iff.1 hok
    have hnone : issueCause w s = none := (issueCause_of_command hdecode s).trans hcheck
    exact .inr (.inl ⟨herr, hnone, t, by rw [hp], herr'.trans herr, hcause⟩)
  · exact .inr (.inr ⟨herr, c, issueBody_error_iff.1 hbody, by rw [hp]⟩)

/-- Settles O21: a word that leads from `ERR = 0` to `ERR = 1` has entered the error of its cause. -/
theorem errorEntryIsPrecise : Obligations.ErrorEntryIsPrecise := by
  intro s t w herr hissue hraised
  rcases issueCommand_cases w s with ⟨herr', -⟩ | ⟨-, -, u, hu, hclear, -⟩ | ⟨-, c, -, hc⟩
  · rw [herr] at herr'
    cases herr'
  · obtain rfl : u = t := Host.Outcome.next.inj (hu.symm.trans hissue)
    rw [hclear] at hraised
    cases hraised
  · obtain rfl : raiseError c s = t := Host.Outcome.next.inj (hc.symm.trans hissue)
    obtain ⟨hlow, hhigh⟩ := causeCode_range c
    exact ⟨causeCode c, hlow, hhigh, rfl⟩

/-- The code of a cause, 0x00 for none (R201). -/
def codeOf (c : Option ErrorCause) : Byte := c.elim 0x00 causeCode

theorem causeCode_ne_zero (c : ErrorCause) : causeCode c ≠ 0x00 := by
  cases c <;> decide

@[simp] theorem codeOf_none : codeOf none = 0x00 := rfl
@[simp] theorem codeOf_some (c : ErrorCause) : codeOf (some c) = causeCode c := rfl

/-- The rates `INIT` refuses (R141). -/
theorem rateLegal_eq_false_iff (rate : Byte) : rateLegal rate = false ↔ rate.toNat < 32 ∨ 200 < rate.toNat := by
  rw [← Bool.not_eq_true, rateLegal_iff]
  omega

/-- The indices `XORB` refuses (R144). -/
theorem indexLegal_eq_false_iff (index : Byte) : indexLegal index = false ↔ 200 ≤ index.toNat := by
  rw [← Bool.not_eq_true, indexLegal_iff, Nat.not_lt]

/-- The code of a command's own check, read from its opcode and its operand A (R201). -/
theorem codeOf_checkOf (i : Instr) (s : State) :
    codeOf (checkOf i s) =
      if i.mnemonic.opcode = 0x01 ∧ (i.operandA.toNat < 32 ∨ 200 < i.operandA.toNat) then 0x03
      else if i.mnemonic.opcode = 0x03 ∧ 200 ≤ i.operandA.toNat then 0x04
      else if (i.mnemonic.opcode = 0x02 ∨ i.mnemonic.opcode = 0x05) ∧ s.session.phase = .finalized then 0x05
      else if i.mnemonic.opcode = 0x07 ∧ s.saveValid = false then 0x06
      else 0x00 := by
  simp only [← rateLegal_eq_false_iff, ← indexLegal_eq_false_iff]
  cases i with
  | nop | permute | save => rfl
  | init rate delim =>
    cases h : rateLegal rate <;>
      simp [Instr.mnemonic, Instr.source, Mnemonic.opcode, Instr.operandA, checkOf, h, causeCode]
  | xorb index value =>
    cases h : indexLegal index <;>
      simp [Instr.mnemonic, Instr.source, Mnemonic.opcode, Instr.operandA, checkOf, h, causeCode]
  | absorb | finalize =>
    cases h : s.session.phase <;> simp [Instr.mnemonic, Instr.source, Mnemonic.opcode, checkOf, h, causeCode]
  | restore =>
    cases h : s.saveValid <;> simp [Instr.mnemonic, Instr.source, Mnemonic.opcode, checkOf, h, causeCode]

/-- A word that is of a row decodes to a command (R73). -/
theorem exists_decode_of_row {w : CommandWord} (h : ¬∀ row ∈ opcodeTable, w &&& row.mask ≠ row.matchBits) :
    ∃ i, decode w = .command i := by
  push Not at h
  obtain ⟨row, hrow, hmatch⟩ := h
  obtain ⟨i, hdecode, -⟩ := (holds_iff_decode hrow w).1 ((row.holds_eq_true w).2 hmatch)
  exact ⟨i, hdecode⟩

/-- The code of a word's cause, read from its fields and the rows of the opcode map in the order of R202. -/
theorem codeOf_issueCause (w : CommandWord) (s : State) :
    codeOf (issueCause w s) =
      if 0x08 ≤ (opField w).toNat then 0x01
      else if ∀ row ∈ opcodeTable, w &&& row.mask ≠ row.matchBits then 0x02
      else if opField w = 0x01 ∧ ((aField w).toNat < 32 ∨ 200 < (aField w).toNat) then 0x03
      else if opField w = 0x03 ∧ 200 ≤ (aField w).toNat then 0x04
      else if (opField w = 0x02 ∨ opField w = 0x05) ∧ s.session.phase = .finalized then 0x05
      else if opField w = 0x07 ∧ s.saveValid = false then 0x06
      else 0x00 := by
  by_cases hop : 0x08 ≤ (opField w).toNat
  · rw [if_pos hop, issueCause_of_illegal (decode_of_le_opField hop), codeOf_some, causeCode]
  rw [if_neg hop]
  by_cases hrows : ∀ row ∈ opcodeTable, w &&& row.mask ≠ row.matchBits
  · obtain ⟨hillegal, -⟩ := reservedNonzeroRaises w s (Nat.not_le.1 hop) hrows
    rw [if_pos hrows, issueCause_of_illegal hillegal, codeOf_some, causeCode]
  · obtain ⟨i, hdecode⟩ := exists_decode_of_row hrows
    obtain ⟨hopcode, hoperand, -, -⟩ := fields_of_decode hdecode
    rw [if_neg hrows, issueCause_of_command hdecode, codeOf_checkOf, hopcode, hoperand]

/-- Settles O22: a word raises its cause, whose code is read from its fields in the order of priority. -/
theorem errorPriorityAndCauses : Obligations.ErrorPriorityAndCauses := by
  intro s w cause hcause
  have hcode : s.err = false → cause = codeOf (issueCause w s) := fun herr => by
    rw [hcause, herr, if_neg Bool.false_ne_true]
    exact (codeOf_issueCause w s).symm
  rcases issueCommand_cases w s with ⟨herr, hissue⟩ | ⟨herr, hnone, t, hissue, hkeep⟩ | ⟨herr, c, hc, hissue⟩
  · rw [if_pos herr] at hcause
    refine ⟨s, hissue, ?_⟩
    rw [if_pos hcause]
    exact ⟨rfl, rfl, fun _ => rfl⟩
  · obtain ⟨herr', hcause'⟩ := hkeep
    refine ⟨t, hissue, ?_⟩
    rw [hcode herr, hnone, codeOf_none, if_pos rfl, herr]
    exact ⟨herr', hcause', nofun⟩
  · refine ⟨raiseError c s, hissue, ?_⟩
    rw [hcode herr, hc, codeOf_some, if_neg (causeCode_ne_zero c), raiseError]

end Sys2Proof.Machine
end

section
/-! SUPPORT. Runs of the host's list and the errors in them (spec/60_exceptions.md R205; spec/70_reset_and_hazards.md
R239; log entry 4): how far a run has come in the list, and the states it passes. -/

namespace Sys2Proof.Machine

/-- A state is ended exactly when the host has no transaction left to serve. -/
theorem ended_iff_remaining (s : State) : s.Ended ↔ s.remaining = 0 :=
  Nat.sub_eq_zero_iff_le.symm

/-- At the end of the host's list a step answers the same state (log entry 3). -/
theorem step_of_ended {s : State} (h : s.Ended) : step s = .next s :=
  step_ended (List.getElem?_eq_none_iff.2 h)

/-- A step serves one of the remaining transactions, where there is one. -/
theorem step_remaining {s t : State} (h : step s = .next t) : t.remaining = s.remaining - 1 := by
  obtain ⟨hlist, hpc, -⟩ := stepKeepsTheHostsList s t h
  rw [State.remaining, State.remaining, hlist, hpc]
  split <;> omega

/-- A run always reaches a state (log entries 3 and 4). -/
theorem exists_run (k : Nat) (s : State) : ∃ t, core.run k s = .next t := by
  induction k generalizing s with
  | zero => exact ⟨s, rfl⟩
  | succ k ih =>
    obtain ⟨u, hstep⟩ := everyStepAnswersANextState s
    rw [run_succ_of_step hstep]
    exact ih u

/-- A run of `k` steps serves `k` of the remaining transactions, or all where they are fewer. -/
theorem run_remaining {k : Nat} {s t : State} (h : core.run k s = .next t) : t.remaining = s.remaining - k := by
  induction k generalizing s with
  | zero => cases h; rfl
  | succ k ih =>
    obtain ⟨u, hstep, hrun⟩ := step_of_run_succ h
    rw [ih hrun, step_remaining hstep, Nat.sub_sub, Nat.add_comm]

/-- The whole run from a state that has not ended is that state and the whole run from the next. -/
theorem wholeRun_of_step {s t : State} (hstep : step s = .next t) (h : ¬s.Ended) : s.wholeRun = s :: t.wholeRun := by
  obtain ⟨n, hn⟩ := Nat.exists_eq_succ_of_ne_zero (mt (ended_iff_remaining s).2 h)
  have ht : t.remaining = n := by rw [step_remaining hstep, hn, Nat.succ_sub_one]
  rw [State.wholeRun, State.wholeRun, hn, ht, runStates_of_step hstep]

/-- Every state that a run reaches is a state of the whole run: beyond the end of the list it is the last one. -/
theorem mem_wholeRun_of_run {k : Nat} {s t : State} (h : core.run k s = .next t) : t ∈ s.wholeRun := by
  induction k generalizing s with
  | zero => exact mem_runStates.2 ⟨0, Nat.zero_le _, h⟩
  | succ k ih =>
    obtain ⟨u, hstep, hrun⟩ := step_of_run_succ h
    by_cases hend : s.Ended
    · obtain rfl : s = u := Host.Outcome.next.inj ((step_of_ended hend).symm.trans hstep)
      exact ih hrun
    · rw [wholeRun_of_step hstep hend]
      exact List.mem_cons_of_mem _ (ih hrun)

/-- A run is faulted exactly when some number of its steps reaches a state with `ERR = 1` (R205). -/
theorem runFaulted_iff (s : State) : s.RunFaulted ↔ ∃ k t, core.run k s = .next t ∧ t.err = true := by
  constructor
  · rintro ⟨t, hmem, herr⟩
    obtain ⟨k, -, hrun⟩ := mem_runStates.1 hmem
    exact ⟨k, t, hrun, herr⟩
  · rintro ⟨k, t, hrun, herr⟩
    exact ⟨t, mem_wholeRun_of_run hrun, herr⟩

/-- A run from a faulted state without a reset in the host's list stays faulted (R204). -/
theorem run_keeps_fault {k : Nat} {s t : State} (herr : s.err = true) (hreset : .reset ∉ s.transactions)
    (h : core.run k s = .next t) : t.err = true := by
  induction k generalizing s with
  | zero => cases h; exact herr
  | succ k ih =>
    obtain ⟨u, hstep, hrun⟩ := step_of_run_succ h
    obtain ⟨hlist, -⟩ := stepKeepsTheHostsList s u hstep
    obtain ⟨herr', -⟩ := step_keeps_error herr hstep fun hnext => hreset (List.mem_of_getElem? hnext)
    exact ih herr' (hlist ▸ hreset) hrun

/-- Settles O23: every step keeps the fault, and a normal end has none. -/
theorem faultedRunHasNoNormalEnd : Obligations.FaultedRunHasNoNormalEnd := by
  intro k s t hfaulted hreset hrun
  have herr : t.err = true := run_keeps_fault hfaulted hreset hrun
  exact ⟨herr, fun hend => hend.2 herr⟩

/-- Settles O52: a faulted state is a state of the whole run, and a run without one ends with its last transaction. -/
theorem runWithAnErrorIsFaulted : Obligations.RunWithAnErrorIsFaulted := by
  refine ⟨fun s t k hrun herr => ?_, fun s hclear => ?_⟩
  · have hfaulted : s.RunFaulted := (runFaulted_iff s).2 ⟨k, t, hrun, herr⟩
    exact ⟨hfaulted, fun hnormal => hnormal.2 hfaulted⟩
  · obtain ⟨t, hrun⟩ := exists_run s.remaining s
    have herr : t.err = false := hclear _ t hrun
    have hend : t.Ended := (ended_iff_remaining t).2 (by rw [run_remaining hrun, Nat.sub_self])
    have hnever : ¬s.RunFaulted := by
      rw [runFaulted_iff]
      rintro ⟨k, u, hu, herr'⟩
      rw [hclear k u hu] at herr'
      cases herr'
    exact ⟨⟨⟨t, getLast?_runStates hrun, hend, by simp [herr]⟩, hnever⟩, t, hrun, hend, herr⟩

end Sys2Proof.Machine
end

section
/-! SUPPORT. Several blocks side by side (spec/60_exceptions.md R211; spec/42_session_control.md R184): a step of one
modifies its own entry of the system and no other. -/

namespace Sys2Proof.Machine

/-- A step of block `k` modifies entry `k` of the system by what every step answers. -/
theorem stepAt_eq_modify {stepped : State → State} (hstep : ∀ s, step s = .next (stepped s)) (k : Nat) (sys : System) :
    System.stepAt k sys = sys.modify k stepped := by
  unfold System.stepAt
  cases hk : sys[k]? with
  | none => rw [List.modify_eq_self (List.getElem?_eq_none_iff.1 hk)]
  | some s => simp only [hstep, List.modify_eq_set_getElem?, hk, Option.map_eq_map, Option.map_some, Option.getD_some]

/-- Settles O51: a step modifies one entry of the list, and modifications of different entries commute. -/
theorem instancesDoNotInteract : Obligations.InstancesDoNotInteract := by
  choose stepped hstepped using everyStepAnswersANextState
  simp only [Obligations.InstancesDoNotInteract, stepAt_eq_modify hstepped]
  refine ⟨fun sys k l hne => List.getElem?_modify_ne _ _ hne.symm, fun sys k s t hs hstep => ?_,
    fun sys k l hne => List.modify_modify_ne _ _ _ hne⟩
  obtain rfl : stepped s = t := Host.Outcome.next.inj ((hstepped s).symm.trans hstep)
  rw [List.getElem?_modify_eq, hs, Option.map_eq_map, Option.map_some]

end Sys2Proof.Machine
end

section
/-! SUPPORT. Reset (spec/70_reset_and_hazards.md R230 to R232): the values it leaves in every register, and the session
that `INIT` creates with the same values. -/

namespace Sys2Proof.Machine

/-- The reset state is reset itself. -/
theorem applyReset_reset : applyReset State.reset = State.reset := rfl

/-- The session after reset is the one that `INIT 136, 0x01` starts (R232). -/
theorem reset_session : State.reset.session = newSession 136 0x01 := rfl

theorem outAt_reset {j : Nat} (h : j < 32) : outAt State.reset.out j = 0x00 := by
  simp [outAt, State.reset, h]

/-- Settles O24: of the transactions only reset clears `ERR`, and it gives every state the same register values,
those of `newSession 136 0x01` with `OUT` zero, no error and no checkpoint. -/
theorem resetSetsEveryRegister : Obligations.ResetSetsEveryRegister := by
  constructor
  · intro s t hstep herr hclear
    by_contra hnext
    obtain ⟨herr', -⟩ := step_keeps_error herr hstep hnext
    exact absurd herr' (Bool.eq_false_iff.1 hclear)
  · intro s hnext
    refine ⟨applyReset (advance s), step_reset hnext, fun u hu => ?_⟩
    obtain ⟨v, rfl⟩ : ∃ v, u = applyReset v := by
      rcases List.mem_pair.1 hu with rfl | rfl
      · exact ⟨advance s, rfl⟩
      · exact ⟨State.reset, applyReset_reset.symm⟩
    rw [applyReset_session, reset_session, applyReset_out]
    exact ⟨fun i _ => byteAt_zeroLanes i, rfl, rfl, rfl, rfl, rfl, rfl, fun _ => outAt_reset, rfl, rfl⟩

/-- Settles O25: 136 is a legal rate, so `INIT 136, 0x01` leaves `newSession 136 0x01`, the session after reset. -/
theorem resetSessionIsInit136 : Obligations.ResetSessionIsInit136 := by
  intro s herr
  have hlegal : rateLegal 136 = true := by decide
  exact ⟨_, exec_of_ok herr (bodyOf_init_legal s hlegal), reset_session.symm⟩

end Sys2Proof.Machine
end
